-- ==== Sys2Proof/Word.lean ====
section
/-! DEFINITION. The word types of the block: bytes of a sequence, the request word, a binary64 pattern. -/

namespace Sys2Proof

/-- A byte of `IN`, of `OUT` or of a frame (00_scope.md section 5: "an unsigned 8-bit value"). -/
abbrev Byte := BitVec 8

/-- The request word `REQ` (30_encoding.md R32). -/
abbrev Word32 := BitVec 32

/-- The data operand `D`, the result `RES`, a channel register: a 64-bit pattern
(30_encoding.md R32, 10_state.md R5, R13). -/
abbrev Word64 := BitVec 64

end Sys2Proof
end

