-- ==== Sys2Proof/Config.lean ====
section
/-! DEFINITION. The parameters of the block (00_scope.md R4): fixed at build time, no state (10_state.md R12, R16).
Every numeric literal of the source is a field here, because the literals are unaudited (decision D30). -/

namespace Sys2Proof

/-- The five bytes of the tiny-RC payload, by what they carry (30_encoding.md R50). -/
inductive RcField where
  | roll | pitch | yaw | throttle | aux
deriving DecidableEq, Repr

/-- The parameters of 00_scope.md R4 that a rule of the block reads, and `INIT_ID`. -/
structure Config where
  /-- `HDR`, header byte 0. -/
  hdr0 : Byte
  /-- `HDR`, header byte 1. -/
  hdr1 : Byte
  /-- `HDR`, header byte 2. -/
  hdr2 : Byte
  /-- `MAX_PAYLOAD`. -/
  maxPayload : Nat
  /-- `ID_RC_TINY` (`SET_RAW_RC_TINY`). -/
  idRcTiny : Byte
  /-- `ID_ARM`. -/
  idArm : Byte
  /-- `ID_DISARM`. -/
  idDisarm : Byte
  /-- `ID_TRIM_UP`. -/
  idTrimUp : Byte
  /-- `ID_TRIM_DOWN`. -/
  idTrimDown : Byte
  /-- `ID_TRIM_LEFT`. -/
  idTrimLeft : Byte
  /-- `ID_TRIM_RIGHT`: the source doubts it (conflict C5, decision D25). -/
  idTrimRight : Byte
  /-- `Q_OFFSET`, a whole number read as a binary64 value. -/
  qOffset : Nat
  /-- `Q_SCALE`, a whole number read as a binary64 value. -/
  qScale : Nat
  /-- `Q_DIV`. -/
  qDiv : Nat
  /-- `AUX_T_LO`, a binary64 pattern (decision D6). -/
  auxTLo : Word64
  /-- `AUX_T_HI`, a binary64 pattern (decision D6). -/
  auxTHi : Word64
  /-- `AUX_CODE_LOW`. -/
  auxCodeLow : BitVec 2
  /-- `AUX_CODE_MID` (decision D7). -/
  auxCodeMid : BitVec 2
  /-- `AUX_CODE_HIGH` (decision D7). -/
  auxCodeHigh : BitVec 2
  /-- `RC_ORDER`, the order of the RC payload bytes (decision D8); its length is `RC_PAYLOAD_LEN`. -/
  rcOrder : List RcField
  /-- `INIT_ID`: the id the host sends at session initialisation (decision D26); a host parameter that no
  rule of the block reads, since the block frames whatever id it is given. -/
  initId : Byte
deriving DecidableEq, Repr

/-- Every parameter at its default, the "value" column of 00_scope.md R4. -/
def config : Config where
  hdr0 := 0x24#8
  hdr1 := 0x4D#8
  hdr2 := 0x3C#8
  maxPayload := 255
  idRcTiny := 0x96#8
  idArm := 0x97#8
  idDisarm := 0x98#8
  idTrimUp := 0x99#8
  idTrimDown := 0x9A#8
  idTrimLeft := 0x9B#8
  idTrimRight := 0x9C#8
  qOffset := 500
  qScale := 500
  qDiv := 4
  auxTLo := 0xBFE54FDF3B645A1D#64
  auxTHi := 0x3FD54FDF3B645A1D#64
  auxCodeLow := 0b00#2
  auxCodeMid := 0b01#2
  auxCodeHigh := 0b10#2
  rcOrder := [.roll, .pitch, .yaw, .throttle, .aux]
  initId := 0x96#8

/-- `KEEPALIVE_PERIOD`, OPEN (decision D32): a host parameter no rule of the block reads. -/
opaque Config.keepalivePeriod : Nat

/-- `FAILSAFE_TIMEOUT`, OPEN (decision D33): the vehicle's, no rule of the block reads it. -/
opaque Config.failsafeTimeout : Nat

/-- `LATENCY` of a request, OPEN and finite (decision D27, R111): no rule depends on it. -/
opaque Config.latency : Nat

end Sys2Proof
end

