-- ==== Sys2Proof/Machine/Frame.lean ====
section
/-! DEFINITION. The framer's two functions, pure and stateless (00_scope.md R2): `xorfold` and `frame`, and the order
of the RC payload. -/

namespace Sys2Proof.Machine

open Sys2Proof

/-- `xorfold` (40_codec.md R56). -/
def xorfold (s : List Byte) : Byte := s.foldr (· ^^^ ·) 0

/-- The bytes the checksum covers: the length byte through the last payload byte (30_encoding.md R47). -/
def frameBody (id : Byte) (p : List Byte) : List Byte := BitVec.ofNat 8 p.length :: id :: p

/-- `frame(id, p)` (40_codec.md R57; layout 30_encoding.md R41). It requires `p.length ≤ MAX_PAYLOAD`. -/
def frame (c : Config) (id : Byte) (p : List Byte) : List Byte :=
  [c.hdr0, c.hdr1, c.hdr2] ++ frameBody id p ++ [xorfold (frameBody id p)]

/-- Where a reader of a byte stream finds the end of a frame: the frame's last byte is byte `5 + byte3`
(30_encoding.md R46). Answers how many bytes the frame has, none if the stream has no byte 3. -/
def frameLengthInStream (stream : List Byte) : Option Nat := (stream[3]?).map fun n => 6 + n.toNat

/-- The bytes `CKSUM` folds: `IN[3 .. n-2]` (40_codec.md R61). -/
def checksummedPart (wire : List Byte) : List Byte := (wire.drop 3).dropLast

/-- The tiny-RC payload: one byte per field, in the order `RC_ORDER` (30_encoding.md R50). -/
def rcPayload (c : Config) (byteOf : RcField → Byte) : List Byte := c.rcOrder.map byteOf

/-- The five bytes of an RC payload by name: the letters r, p, y, t, x of 40_codec.md R62. -/
def rcBytes (r p y t x : Byte) : RcField → Byte
  | .roll => r
  | .pitch => p
  | .yaw => y
  | .throttle => t
  | .aux => x

end Sys2Proof.Machine
end

