-- ==== Sys2Proof/Syntax.lean ====
section
/-! DEFINITION. What a host can present to the block, and the instructions it decodes to: one constructor of `Instr`
per row of spec/opcode_table.json. -/

namespace Sys2Proof

/-- The eight channels, in the order of their numbers 0..7 (10_state.md R5, 30_encoding.md R36). -/
inductive Axis where
  | roll | pitch | yaw | throttle | aux1 | aux2 | aux3 | aux4
deriving DecidableEq, Repr

/-- A request triple `(REQ, D, IN)` (30_encoding.md R32). -/
structure Request where
  req : Word32
  d : Word64
  inp : List Byte
deriving DecidableEq, Repr

/-- What the host presents for the block to perform: a request triple (30_encoding.md R32), or a named command, given
by its wire frame as the opcode table's wire-frame rows give it (30_encoding.md R48, R54).
DESIGN CHOICE (log 5): the second form exists so that these rows have an encoding to decode. -/
inductive Presented where
  | request (q : Request)
  | command (wire : List Byte)
deriving DecidableEq, Repr

/-- What can happen at the block's interface between two requests (00_scope.md R3): the host presents something to
perform, or asserts reset (70_reset_and_hazards.md R97). -/
inductive HostEvent where
  | present (p : Presented)
  | reset
deriving DecidableEq, Repr

/-- The six operation codes of 30_encoding.md R34. -/
inductive ReqOp where
  | setax | rdax | bldrc | bldcmd | bldsmp | cksum
deriving DecidableEq, Repr

/-- One constructor per row of spec/opcode_table.json. `LEN` is no operand of its own: a legal request has
`len(IN) = LEN` (30_encoding.md R35). `D` is an operand of `SETAX` alone (R37). -/
inductive Instr where
  /-- `SETAX`, R78. -/
  | setax (axis : Axis) (d : Word64)
  /-- `RDAX`, R79. -/
  | rdax (axis : Axis)
  /-- `BLDRC`, R80. -/
  | bldrc
  /-- `BLDCMD`, R59. -/
  | bldcmd (id : Byte) (payload : List Byte)
  /-- `BLDSMP`, R60. -/
  | bldsmp (id : Byte)
  /-- `CKSUM`, R61: `wire` is `IN`, a whole frame. -/
  | cksum (wire : List Byte)
  /-- `SET_RAW_RC_TINY` with the tiny-RC payload, R62: the payload bytes r, p, y, t, x. -/
  | setRawRcTiny (r p y t x : Byte)
  /-- `SET_RAW_RC_TINY` as a simple command, R63. -/
  | rcinit
  /-- `ARM`, R64. -/
  | arm
  /-- `DISARM`, R65. -/
  | disarm
  /-- `TRIM_UP`, R66. -/
  | trimUp
  /-- `TRIM_DOWN`, R67. -/
  | trimDown
  /-- `TRIM_LEFT`, R68. -/
  | trimLeft
  /-- `TRIM_RIGHT`, R69. -/
  | trimRight
deriving DecidableEq, Repr

end Sys2Proof
end

