-- ==== Sys2Proof/Machine/Operands.lean ====
section
/-! DEFINITION. The operand forms of the request word (30_encoding.md R33, R36, R38): fields and channel numbers. -/

namespace Sys2Proof.Machine

open Sys2Proof

/-- `OP = REQ[31:28]` (R33). -/
def opField (w : Word32) : BitVec 4 := w.extractLsb' 28 4

/-- `RSV = REQ[27:24]` (R33). -/
def rsvField (w : Word32) : BitVec 4 := w.extractLsb' 24 4

/-- `ID = REQ[23:16]` (R33, R38). -/
def idField (w : Word32) : Byte := w.extractLsb' 16 8

/-- `LEN = REQ[15:0]`, an unsigned count (R33, R38). -/
def lenField (w : Word32) : BitVec 16 := w.extractLsb' 0 16

/-- `AXIS = REQ[2:0]` (R33). -/
def axisField (w : Word32) : BitVec 3 := w.extractLsb' 0 3

/-- The channels in the order of their numbers (10_state.md R5). -/
def axes : List Axis := [.roll, .pitch, .yaw, .throttle, .aux1, .aux2, .aux3, .aux4]

/-- The number of a channel (10_state.md R5). -/
def axisNumber : Axis → BitVec 3
  | .roll => 0
  | .pitch => 1
  | .yaw => 2
  | .throttle => 3
  | .aux1 => 4
  | .aux2 => 5
  | .aux3 => 6
  | .aux4 => 7

/-- The channel that `AXIS` selects (30_encoding.md R36): all eight values are legal. -/
def axisOf (b : BitVec 3) : Axis :=
  match b.toNat with
  | 0 => .roll
  | 1 => .pitch
  | 2 => .yaw
  | 3 => .throttle
  | 4 => .aux1
  | 5 => .aux2
  | 6 => .aux3
  | _ => .aux4

end Sys2Proof.Machine
end

