-- ==== Sys2Proof/WellFormed.lean ====
section
/-! DEFINITION. When an instruction has an encoding: `LEN` is 16 bits wide, so `IN` is at most 65535 bytes
(30_encoding.md R32, R33). Every other operand fits its field by its type. -/

namespace Sys2Proof

/-- The longest `IN` a request can carry (30_encoding.md R32). -/
abbrev maxIn : Nat := 65535

/-- The checks of an instruction's operands. A `BLDCMD` payload of 256..65535 bytes is well formed: it can be asked,
and fails (decision D17). -/
def Instr.wellFormed : Instr → Bool
  | .setax _ _ => true
  | .rdax _ => true
  | .bldrc => true
  | .bldcmd _ payload => payload.length ≤ maxIn
  | .bldsmp _ => true
  | .cksum wire => wire.length ≤ maxIn
  | .setRawRcTiny _ _ _ _ _ => true
  | .rcinit => true
  | .arm => true
  | .disarm => true
  | .trimUp => true
  | .trimDown => true
  | .trimLeft => true
  | .trimRight => true

end Sys2Proof
end

