-- ==== Sys2Proof/Decode.lean ====
section
/-! DEFINITION. Decoding, total on every request triple (30_encoding.md R34 to R40) and every byte sequence presented
as a named command (opcode table rows of format wire_frame; R41, R48), and the encoder, written from the same tables. -/

namespace Sys2Proof

open Machine

/-- Why something presented is no instruction. -/
inductive Reject where
  /-- `OP` is `0x0` or `0x7` .. `0xF` (30_encoding.md R39). -/
  | reservedOp
  /-- A defined `OP` with a must-be-zero bit set (R39). -/
  | mustBeZeroBit
  /-- `len(IN)` breaks R35. -/
  | inputLength
  /-- A wire frame that is the frame of no named command. -/
  | notNamedCommand
deriving DecidableEq, Repr

/-- The rows of 30_encoding.md R34, in its order. -/
def requestOps : List ReqOp := [.setax, .rdax, .bldrc, .bldcmd, .bldsmp, .cksum]

/-- The "match" column of 30_encoding.md R34. -/
def ReqOp.pattern : ReqOp → Word32
  | .setax => 0x10000000#32
  | .rdax => 0x20000000#32
  | .bldrc => 0x30000000#32
  | .bldcmd => 0x40000000#32
  | .bldsmp => 0x50000000#32
  | .cksum => 0x60000000#32

/-- The "mask" column of 30_encoding.md R34: it covers every must-be-zero bit. -/
def ReqOp.mask : ReqOp → Word32
  | .setax => 0xFFFFFFF8#32
  | .rdax => 0xFFFFFFF8#32
  | .bldrc => 0xFFFFFFFF#32
  | .bldcmd => 0xFF000000#32
  | .bldsmp => 0xFF00FFFF#32
  | .cksum => 0xFFFF0000#32

/-- "A request word selects a mnemonic when `(REQ & mask) = match`" (30_encoding.md R34). -/
def ReqOp.selects (o : ReqOp) (w : Word32) : Bool := w &&& o.mask == o.pattern

/-- The operation a request word selects, if any. -/
def selectOp (w : Word32) : Option ReqOp := requestOps.find? (·.selects w)

/-- Does `OP` hold one of the six defined codes (30_encoding.md R34)? -/
def opDefined (w : Word32) : Bool := requestOps.any (opField ·.pattern == opField w)

/-- The length `IN` must have (30_encoding.md R35). -/
def ReqOp.inLength (o : ReqOp) (w : Word32) : Nat :=
  match o with
  | .bldcmd | .cksum => (lenField w).toNat
  | .setax | .rdax | .bldrc | .bldsmp => 0

/-- The instruction of a legal request, its operands taken from their fields (30_encoding.md R33, R36, R37, R38). -/
def ReqOp.instr (o : ReqOp) (q : Request) : Instr :=
  match o with
  | .setax => .setax (axisOf (axisField q.req)) q.d
  | .rdax => .rdax (axisOf (axisField q.req))
  | .bldrc => .bldrc
  | .bldcmd => .bldcmd (idField q.req) q.inp
  | .bldsmp => .bldsmp (idField q.req)
  | .cksum => .cksum q.inp

/-- Decoding a request triple: total (30_encoding.md R40). -/
def decodeRequest (q : Request) : Except Reject Instr :=
  match selectOp q.req with
  | none => .error (if opDefined q.req then .mustBeZeroBit else .reservedOp)
  | some o => if q.inp.length = o.inLength q.req then .ok (o.instr q) else .error .inputLength

/-- The simple command that an id names (30_encoding.md R48). -/
def simpleCommand (c : Config) (id : Byte) : Option Instr :=
  if id = c.idRcTiny then some .rcinit
  else if id = c.idArm then some .arm
  else if id = c.idDisarm then some .disarm
  else if id = c.idTrimUp then some .trimUp
  else if id = c.idTrimDown then some .trimDown
  else if id = c.idTrimLeft then some .trimLeft
  else if id = c.idTrimRight then some .trimRight
  else none

/-- The byte of a payload that carries a given field under `RC_ORDER` (30_encoding.md R50). -/
def rcByteAt (c : Config) (payload : List Byte) (f : RcField) : Byte := payload.getD (c.rcOrder.idxOf f) 0

/-- The named command a wire frame is the frame of (40_codec.md R62 to R69): the header, the length byte, the id and the
checksum must all be right. -/
def namedCommand (c : Config) (wire : List Byte) : Option Instr :=
  match wire with
  | [h0, h1, h2, n, id, ck] =>
    if [h0, h1, h2] = [c.hdr0, c.hdr1, c.hdr2] ∧ n = 0 ∧ ck = n ^^^ id then simpleCommand c id else none
  | [h0, h1, h2, n, id, b0, b1, b2, b3, b4, ck] =>
    if [h0, h1, h2] = [c.hdr0, c.hdr1, c.hdr2] ∧ n = 5 ∧ id = c.idRcTiny
        ∧ ck = n ^^^ id ^^^ b0 ^^^ b1 ^^^ b2 ^^^ b3 ^^^ b4 then
      let at' := rcByteAt c [b0, b1, b2, b3, b4]
      some (.setRawRcTiny (at' .roll) (at' .pitch) (at' .yaw) (at' .throttle) (at' .aux))
    else none
  | _ => none

/-- Decoding whatever is presented, rejecting by name. -/
def decode : Presented → Except Reject Instr
  | .request q => decodeRequest q
  | .command wire =>
    match namedCommand config wire with
    | some i => .ok i
    | none => .error .notNamedCommand

/-! ### The encoder -/

/-- A request of an operation: the operand bits joined to the operation's "match" word (30_encoding.md R53). -/
def ReqOp.request (o : ReqOp) (bits : Word32) (d : Word64) (inp : List Byte) : Request := ⟨o.pattern ||| bits, d, inp⟩

/-- `axis` in its field (30_encoding.md R53). -/
def axisBits (a : Axis) : Word32 := (axisNumber a).setWidth 32

/-- `id << 16` (30_encoding.md R53). -/
def idBits (id : Byte) : Word32 := id.setWidth 32 <<< 16

/-- `n` in the `LEN` field (30_encoding.md R53). -/
def lenBits (n : Nat) : Word32 := (BitVec.ofNat 16 n).setWidth 32

/-- The frame of a simple command, its six bytes written out (40_codec.md R60, R63 to R69). -/
def simpleWire (c : Config) (id : Byte) : List Byte := [c.hdr0, c.hdr1, c.hdr2, 0, id, id]

/-- The frame of an RC command (40_codec.md R62): `HDR`, length 5, id, the payload in `RC_ORDER`, the checksum. -/
def rcWire (c : Config) (byteOf : RcField → Byte) : List Byte :=
  [c.hdr0, c.hdr1, c.hdr2, 5, c.idRcTiny] ++ c.rcOrder.map byteOf ++
    [5 ^^^ c.idRcTiny ^^^ byteOf .roll ^^^ byteOf .pitch ^^^ byteOf .yaw ^^^ byteOf .throttle ^^^ byteOf .aux]

/-- The words of an instruction: the request triple of 30_encoding.md R53 (`D` is 0 where it is ignored, log 13), or the
wire frame of a named command. -/
def encode : Instr → Presented
  | .setax a d => .request (ReqOp.setax.request (axisBits a) d [])
  | .rdax a => .request (ReqOp.rdax.request (axisBits a) 0 [])
  | .bldrc => .request (ReqOp.bldrc.request 0 0 [])
  | .bldcmd id payload => .request (ReqOp.bldcmd.request (idBits id ||| lenBits payload.length) 0 payload)
  | .bldsmp id => .request (ReqOp.bldsmp.request (idBits id) 0 [])
  | .cksum wire => .request (ReqOp.cksum.request (lenBits wire.length) 0 wire)
  | .setRawRcTiny r p y t x => .command (rcWire config (rcBytes r p y t x))
  | .rcinit => .command (simpleWire config config.idRcTiny)
  | .arm => .command (simpleWire config config.idArm)
  | .disarm => .command (simpleWire config config.idDisarm)
  | .trimUp => .command (simpleWire config config.idTrimUp)
  | .trimDown => .command (simpleWire config config.idTrimDown)
  | .trimLeft => .command (simpleWire config config.idTrimLeft)
  | .trimRight => .command (simpleWire config config.idTrimRight)

/-! ### Words numbered as spec/opcode_table.json numbers them -/

/-- The bytes of a table word, the first byte in bits 7..0. -/
def tableBytes (nbits w : Nat) : List Byte := (List.range (nbits / 8)).map fun k => BitVec.ofNat 8 (w >>> (8 * k))

/-- A frame whose checksum bits the table leaves open (its letter `c`) and the table word leaves 0, filled in. -/
def fillChecksum (wire : List Byte) : List Byte :=
  if wire.getLast? = some 0 then wire.dropLast ++ [xorfold (checksummedPart wire)] else wire

/-- The wire frame of a table word: its first byte in bits 7..0, or, where that reading is the frame of no named command,
the row's "encoding" string read as one number, first byte in the highest bits; then the same with the checksum filled in
(log 11). -/
def tableWire (nbits w : Nat) : List Byte :=
  let bytes := tableBytes nbits w
  let readings := [bytes, bytes.reverse, fillChecksum bytes, fillChecksum bytes.reverse]
  (readings.find? fun wire => (namedCommand config wire).isSome).getD bytes

/-- A table word as it would be presented: a word of at most 32 bits is a request word with every operand outside it
zero (`D` is 0, `IN` the `LEN` zero bytes R35 asks for), a longer one a wire frame. -/
def tablePresented (nbits w : Nat) : Presented :=
  if nbits ≤ 32 then
    let req := BitVec.ofNat 32 w
    let n := match selectOp req with
      | some o => o.inLength req
      | none => 0
    .request ⟨req, 0, List.replicate n 0⟩
  else .command (tableWire nbits w)

/-- The instruction the decoder reads from an instruction whose bits are `w`. -/
def decodeTableWord (nbits w : Nat) : Option Instr := (decode (tablePresented nbits w)).toOption

end Sys2Proof
end

