-- ==== Sys2Proof/Machine/Binary64.lean ====
section
/-! DEFINITION. The binary64 primitives of 00_scope.md section 5. Every finite binary64 value is a whole multiple of
2^-1074, so a value is held exactly as a sign and a whole number of those units. -/

namespace Sys2Proof.Machine

open Sys2Proof

/-- How many units of 2^-1074 the number 1 has. It is irreducible so that no tactic computes it by accident. -/
@[irreducible] def unitsPerOne : Nat := 2 ^ 1074

/-- `w[62:52]`. -/
def expField (w : Word64) : Nat := (w.extractLsb' 52 11).toNat

/-- `w[51:0]`. -/
def fracField (w : Word64) : Nat := (w.extractLsb' 0 52).toNat

/-- `isNaN(w)`: any NaN pattern, either sign, quiet or signalling (00_scope.md section 5, 60_exceptions.md R86). -/
def isNaN (w : Word64) : Bool := expField w == 2047 && fracField w != 0

/-- A binary64 value other than NaN: its sign (two zeros are told apart) and its magnitude in units of 2^-1074.
An infinity has the magnitude 2^1024, above every finite one, so comparisons order it as the spec says. -/
structure F64 where
  neg : Bool
  mag : Nat
deriving DecidableEq, Repr

/-- `f64(w)` (00_scope.md section 5). A NaN pattern has no value: every caller's precondition excludes it (log 12). -/
def f64 (w : Word64) : F64 where
  neg := w.getLsbD 63
  mag := if expField w = 0 then fracField w else (2 ^ 52 + fracField w) * 2 ^ (expField w - 1)

/-- The value as a signed number of units: −0 and +0 are both 0. -/
def F64.toInt (a : F64) : Int := if a.neg then -(a.mag : Int) else (a.mag : Int)

/-- The real value. -/
def F64.toRat (a : F64) : ℚ := (a.toInt : ℚ) / (unitsPerOne : ℚ)

/-- `a < b`, between the real values (00_scope.md section 5). -/
abbrev F64.lt (a b : F64) : Prop := a.toInt < b.toInt

/-- `a ≤ b`, between the real values. -/
abbrev F64.le (a b : F64) : Prop := a.toInt ≤ b.toInt

/-- A whole number below 2^53 as a binary64 value: it is exact. -/
def F64.ofNat (n : Nat) : F64 := ⟨false, n * unitsPerOne⟩

/-- The size of the last place of a magnitude of `q` whole units: 1 unit below 2^53 units (subnormals and the first
normal binade), and then doubling from binade to binade. -/
def ulp (q : Nat) : Nat := 2 ^ (Nat.log2 q - 52)

/-- The whole number nearest to `n / d`, the even one when two are equally near. -/
def nearestEven (n d : Nat) : Nat :=
  let m := n / d
  let r := n % d
  if 2 * r < d then m
  else if d < 2 * r then m + 1
  else if m % 2 = 0 then m else m + 1

/-- `rne` on magnitudes: the binary64 magnitude nearest to `n / d` units, ties to the even fraction
(00_scope.md section 5). The exponent is not bounded above: no value of the block overflows. -/
def rneMag (n d : Nat) : Nat := nearestEven n (d * ulp (n / d)) * ulp (n / d)

/-- `fmul(a, b)`: the exact product, rounded; a zero result has the sign `sign(a) XOR sign(b)`. -/
def fmul (a b : F64) : F64 := ⟨xor a.neg b.neg, rneMag (a.mag * b.mag) unitsPerOne⟩

/-- `fadd(a, b)`: the exact sum, rounded; an exact zero sum is `+0` unless both operands are negative zeros. -/
def fadd (a b : F64) : F64 :=
  let sum := a.toInt + b.toInt
  ⟨if sum = 0 then a.neg && b.neg else decide (sum < 0), rneMag sum.natAbs 1⟩

/-- `fabs(a)`. -/
def fabs (a : F64) : F64 := { a with neg := false }

/-- `floor(a / k)` for `a ≥ 0` and a whole number `k`; with `k = 4` the binary64 division before it is exact. -/
def floorDiv (a : F64) (k : Nat) : Nat := a.mag / (k * unitsPerOne)

/-- The pattern of a finite value: the inverse of `f64`. -/
def toPattern (a : F64) : Word64 :=
  let s := Nat.log2 a.mag - 52
  BitVec.ofBool a.neg ++ BitVec.ofNat 63 (s * 2 ^ 52 + a.mag / 2 ^ s)

end Sys2Proof.Machine
end

