-- ==== Sys2Proof/Machine/State.lean ====
section
/-! DEFINITION. The state of the block (10_state.md R5 to R16), the response it gives, its reset, and the reasons a step
can stop. -/

namespace Sys2Proof.Machine

open Sys2Proof

/-- The eight channel registers `CH[0]` .. `CH[7]`, each a 64-bit binary64 pattern (10_state.md R5, R6). -/
structure Channels where
  roll : Word64
  pitch : Word64
  yaw : Word64
  throttle : Word64
  aux1 : Word64
  aux2 : Word64
  aux3 : Word64
  aux4 : Word64
deriving DecidableEq, Repr

/-- The status codes of 60_exceptions.md R82, by name. -/
inductive Status where
  | ok | illegalRequest | payloadTooLarge | checksumLength | nanInput
deriving DecidableEq, Repr

/-- The response of a request (10_state.md R13). -/
structure Response where
  status : Status
  out : List Byte
  res : Word64
deriving DecidableEq, Repr

/-- The state. `ch` is all the architectural state there is (10_state.md R5, R15). The other two fields are the MODEL's
own, the block's interface: `inputs` are the events presented and not yet accepted, the first to be accepted first
(log 1); `response` is what the latest step answered, if it answered (log 2). -/
structure State where
  ch : Channels
  inputs : List HostEvent
  response : Option Response
deriving DecidableEq, Repr

/-- The block has no fault state (60_exceptions.md R89, R92; 93_implementation_defined.md): no constructor, nobody
raises one. -/
inductive Fault where
deriving DecidableEq, Repr

/-- The reasons the model gives no meaning. -/
inductive Refusal where
  /-- An instruction of the table without a meaning yet: raised by an arm of `exec` alone; safe. No arm raises it. -/
  | notModelled (mnemonic : String)
  /-- A byte sequence presented as a named command that is the frame of none: raised by `step` when decoding fails; it
  is no instruction and no input the spec gives the block. Safe: the model stops (log 6). -/
  | notNamedCommand
deriving DecidableEq, Repr

/-- The outcome of a step. -/
abbrev Result := Host.Outcome State Fault Refusal

/-- Every channel register at +0.0 (70_reset_and_hazards.md R98). -/
def Channels.centred : Channels := ⟨0, 0, 0, 0, 0, 0, 0, 0⟩

/-- The block right after reset (70_reset_and_hazards.md R98, R99), nothing presented and nothing answered. -/
def State.reset : State where
  ch := Channels.centred
  inputs := []
  response := none

end Sys2Proof.Machine
end

