-- ==== Sys2Proof/Machine/Flags.lean ====
section
/-! DEFINITION. The block has no flags (10_state.md R11): the only status is that of a response. Here are the code of each
status and each request's own check (60_exceptions.md R82 to R88). -/

namespace Sys2Proof.Machine

open Sys2Proof

/-- The 8-bit `STATUS` codes (60_exceptions.md R82). -/
def Status.code : Status → Byte
  | .ok => 0x00
  | .illegalRequest => 0x01
  | .payloadTooLarge => 0x02
  | .checksumLength => 0x03
  | .nanInput => 0x04

/-- The check of `BLDCMD` (60_exceptions.md R84). -/
def payloadTooLarge (c : Config) (n : Nat) : Bool := c.maxPayload < n

/-- The check of `CKSUM` (60_exceptions.md R85): shorter than the shortest frame or longer than the longest. -/
def checksumLengthBad (c : Config) (n : Nat) : Bool := n < 6 || 6 + c.maxPayload < n

/-- The check of `SETAX` (60_exceptions.md R86). -/
def nanInput (d : Word64) : Bool := isNaN d

end Sys2Proof.Machine
end

