-- ==== Sys2Proof/Machine/Quantize.lean ====
section
/-! DEFINITION. The channel unit's four functions (41_channel.md R71 to R76). Each requires a non-NaN pattern. -/

namespace Sys2Proof.Machine

open Sys2Proof

/-- The pattern of 1.0. -/
def posOne : Word64 := 0x3FF0000000000000#64

/-- The pattern of −1.0. -/
def negOne : Word64 := 0xBFF0000000000000#64

/-- `clamp(w)` (41_channel.md R71): −0.0 is kept, the infinities become ±1.0 (decision D11). -/
def clamp (w : Word64) : Word64 :=
  if (f64 w).lt (f64 negOne) then negOne
  else if (f64 posOne).lt (f64 w) then posOne
  else w

/-- `t1 = fmul(Q_SCALE, c)` of 41_channel.md R72. -/
def quantizeScaled (c : Config) (w : Word64) : F64 := fmul (F64.ofNat c.qScale) (f64 (clamp w))

/-- `t2 = fadd(Q_OFFSET, t1)` of 41_channel.md R72. -/
def quantizeShifted (c : Config) (w : Word64) : F64 := fadd (F64.ofNat c.qOffset) (quantizeScaled c w)

/-- `quantize(w)` (41_channel.md R72): clamp first, then one rounding per operation in the written order
(decision D5). -/
def quantize (c : Config) (w : Word64) : Byte :=
  BitVec.ofNat 8 (floorDiv (fabs (quantizeShifted c w)) c.qDiv)

/-- `auxcode(w)` (41_channel.md R75): mid includes `AUX_T_LO`, high includes `AUX_T_HI`. -/
def auxcode (c : Config) (w : Word64) : BitVec 2 :=
  if (f64 w).lt (f64 c.auxTLo) then c.auxCodeLow
  else if (f64 w).lt (f64 c.auxTHi) then c.auxCodeMid
  else c.auxCodeHigh

/-- `auxpack(w4, w5, w6, w7)` (41_channel.md R76, 30_encoding.md R51): aux1 in bits 7:6 down to aux4 in bits 1:0. -/
def auxpack (c : Config) (w4 w5 w6 w7 : Word64) : Byte :=
  ((auxcode c w4).setWidth 8 <<< 6) ||| ((auxcode c w5).setWidth 8 <<< 4) |||
    ((auxcode c w6).setWidth 8 <<< 2) ||| (auxcode c w7).setWidth 8

end Sys2Proof.Machine
end

