-- ==== Sys2Proof/Machine/Ops.lean ====
section
/-! DEFINITION. The named operations: reading and writing a channel register, answering a request, raising an error,
reset, and the payload of the RC frame. -/

namespace Sys2Proof.Machine

open Sys2Proof

/-- Read a channel register, whole (20_memory.md R22). -/
def Channels.read (ch : Channels) : Axis → Word64
  | .roll => ch.roll
  | .pitch => ch.pitch
  | .yaw => ch.yaw
  | .throttle => ch.throttle
  | .aux1 => ch.aux1
  | .aux2 => ch.aux2
  | .aux3 => ch.aux3
  | .aux4 => ch.aux4

/-- Write a channel register, all 64 bits at once (20_memory.md R25). None is hardwired (10_state.md R9). -/
def Channels.write (ch : Channels) (a : Axis) (w : Word64) : Channels :=
  match a with
  | .roll => { ch with roll := w }
  | .pitch => { ch with pitch := w }
  | .yaw => { ch with yaw := w }
  | .throttle => { ch with throttle := w }
  | .aux1 => { ch with aux1 := w }
  | .aux2 => { ch with aux2 := w }
  | .aux3 => { ch with aux3 := w }
  | .aux4 => { ch with aux4 := w }

/-- `CH[a] <- w`. -/
def State.writeChannel (s : State) (a : Axis) (w : Word64) : State := { s with ch := s.ch.write a w }

/-- Answer a request: exactly one response (10_state.md R13). -/
def answer (r : Response) (s : State) : Result := .next { s with response := some r }

/-- A successful response with the given `OUT` and `RES`. -/
def succeed (out : List Byte) (res : Word64) (s : State) : Result := answer ⟨.ok, out, res⟩ s

/-- `raise <Status>`: the request ends with that status and no other effect; `OUT` is `[]` and `RES` is 0
(60_exceptions.md R87). There is no handler and no return: the next request is taken normally (R89, R92). -/
def raise (st : Status) (s : State) : Result := answer ⟨st, [], 0⟩ s

/-- `OUT <- frame(id, p)`, `RES <- 0`, `STATUS <- OK` (40_codec.md R59, R60). -/
def emitFrame (id : Byte) (p : List Byte) (s : State) : Result := succeed (frame config id p) 0 s

/-- The bytes of the RC payload computed from the channels (30_encoding.md R50, 41_channel.md R77). -/
def rcFieldByte (c : Config) (ch : Channels) : RcField → Byte
  | .roll => quantize c (ch.read .roll)
  | .pitch => quantize c (ch.read .pitch)
  | .yaw => quantize c (ch.read .yaw)
  | .throttle => quantize c (ch.read .throttle)
  | .aux => auxpack c (ch.read .aux1) (ch.read .aux2) (ch.read .aux3) (ch.read .aux4)

/-- Reset (70_reset_and_hazards.md R97 to R99): every channel at +0.0; it is no request and gives no response. -/
def performReset (s : State) : State := { s with ch := Channels.centred, response := none }

/-- Nothing is presented: the block is idle and keeps its channels (60_exceptions.md R95). -/
def idle (s : State) : State := { s with response := none }

/-- What becomes of something presented that decodes to nothing: an illegal request is answered `ILLEGAL_REQUEST`
(60_exceptions.md R83); a wire frame of no named command is refused (log 6). -/
def rejectPresented (r : Reject) (s : State) : Result :=
  match r with
  | .reservedOp | .mustBeZeroBit | .inputLength => raise .illegalRequest s
  | .notNamedCommand => .refused .notNamedCommand

end Sys2Proof.Machine
end

