-- ==== Sys2Proof/Machine/Channel.lean ====
section
/-! DEFINITION. The channel unit's requests: `SETAX`, `RDAX`, `BLDRC` (41_channel.md R78 to R80). -/

namespace Sys2Proof.Machine

open Sys2Proof

/-- `SETAX` (41_channel.md R78): a NaN is refused with `NAN_INPUT` and the channel keeps its value (60_exceptions.md R86);
any other value is stored clamped. -/
def execSetax (axis : Axis) (d : Word64) (s : State) : Result :=
  if nanInput d then raise .nanInput s
  else succeed [] 0 (s.writeChannel axis (clamp d))

/-- `RDAX` (41_channel.md R79). -/
def execRdax (axis : Axis) (s : State) : Result := succeed [] (s.ch.read axis) s

/-- `BLDRC` (41_channel.md R80): the whole RC frame, from one snapshot of the channels (20_memory.md R24). -/
def execBldrc (s : State) : Result := emitFrame config.idRcTiny (rcPayload config (rcFieldByte config s.ch)) s

end Sys2Proof.Machine
end

