-- ==== Sys2Proof/Machine/Commands.lean ====
section
/-! DEFINITION. The named commands of the protocol variant (40_codec.md R62 to R69; 30_encoding.md R48, R54): each is
performed by building its frame. The block checks no session state (70_reset_and_hazards.md R106). -/

namespace Sys2Proof.Machine

open Sys2Proof

/-- `SET_RAW_RC_TINY` with the tiny-RC payload (40_codec.md R62): the RC frame of the five payload bytes. `BLDRC` builds
it for the bytes of the channels (log 7). -/
def execSetRawRcTiny (r p y t x : Byte) (s : State) : Result :=
  emitFrame config.idRcTiny (rcPayload config (rcBytes r p y t x)) s

/-- `RCINIT`, `SET_RAW_RC_TINY` as a simple command (40_codec.md R63). -/
def execRcinit (s : State) : Result := emitFrame config.idRcTiny [] s

/-- `ARM` (40_codec.md R64). -/
def execArm (s : State) : Result := emitFrame config.idArm [] s

/-- `DISARM` (40_codec.md R65). -/
def execDisarm (s : State) : Result := emitFrame config.idDisarm [] s

/-- `TRIM_UP` (40_codec.md R66). -/
def execTrimUp (s : State) : Result := emitFrame config.idTrimUp [] s

/-- `TRIM_DOWN` (40_codec.md R67). -/
def execTrimDown (s : State) : Result := emitFrame config.idTrimDown [] s

/-- `TRIM_LEFT` (40_codec.md R68). -/
def execTrimLeft (s : State) : Result := emitFrame config.idTrimLeft [] s

/-- `TRIM_RIGHT` (40_codec.md R69), with the parameter `ID_TRIM_RIGHT` (decision D25). -/
def execTrimRight (s : State) : Result := emitFrame config.idTrimRight [] s

end Sys2Proof.Machine
end

