-- ==== Sys2Proof/Machine/Framer.lean ====
section
/-! DEFINITION. The framer's requests: `BLDCMD`, `BLDSMP`, `CKSUM` (40_codec.md R59 to R61). They read and write no
channel register. -/

namespace Sys2Proof.Machine

open Sys2Proof

/-- `BLDCMD` (40_codec.md R59): any id (30_encoding.md R49), a payload of at most `MAX_PAYLOAD` bytes. -/
def execBldcmd (id : Byte) (payload : List Byte) (s : State) : Result :=
  if payloadTooLarge config payload.length then raise .payloadTooLarge s else emitFrame id payload s

/-- `BLDSMP` (40_codec.md R60): the frame of any id with no payload. -/
def execBldsmp (id : Byte) (s : State) : Result := emitFrame id [] s

/-- `CKSUM` (40_codec.md R61): it computes and validates nothing; `RES` is the fold, zero-extended. -/
def execCksum (wire : List Byte) (s : State) : Result :=
  if checksumLengthBad config wire.length then raise .checksumLength s
  else succeed [] ((xorfold (checksummedPart wire)).setWidth 64) s

end Sys2Proof.Machine
end

