-- ==== Sys2Proof/Machine/Dispatch.lean ====
section
/-! DEFINITION. `exec`: one arm per row of spec/opcode_table.json, each one call of the row's meaning. -/

namespace Sys2Proof.Machine

open Sys2Proof

def exec (i : Instr) (s : State) : Host.Outcome State Fault Refusal :=
  match i with
  | .setax axis d => Sys2Proof.Machine.execSetax axis d s
  | .rdax axis => Sys2Proof.Machine.execRdax axis s
  | .bldrc => Sys2Proof.Machine.execBldrc s
  | .bldcmd id payload => Sys2Proof.Machine.execBldcmd id payload s
  | .bldsmp id => Sys2Proof.Machine.execBldsmp id s
  | .cksum wire => Sys2Proof.Machine.execCksum wire s
  | .setRawRcTiny r p y t x => Sys2Proof.Machine.execSetRawRcTiny r p y t x s
  | .rcinit => Sys2Proof.Machine.execRcinit s
  | .arm => Sys2Proof.Machine.execArm s
  | .disarm => Sys2Proof.Machine.execDisarm s
  | .trimUp => Sys2Proof.Machine.execTrimUp s
  | .trimDown => Sys2Proof.Machine.execTrimDown s
  | .trimLeft => Sys2Proof.Machine.execTrimLeft s
  | .trimRight => Sys2Proof.Machine.execTrimRight s

end Sys2Proof.Machine
end

