-- ==== Sys2Proof/Machine/Step.lean ====
section
/-! DEFINITION. One step: the block takes the next presented event, whole (20_memory.md R23, R26). -/

namespace Sys2Proof.Machine

open Sys2Proof

/-- Perform something presented: decode it, then run it or reject it. -/
def perform (p : Presented) (s : State) : Result :=
  match decode p with
  | .ok i => exec i s
  | .error r => rejectPresented r s

/-- One step. The next event is accepted, in the order presented (20_memory.md R26); reset is taken between requests
(70_reset_and_hazards.md R97); with nothing presented the block idles (60_exceptions.md R95). -/
def step (s : State) : Host.Outcome State Fault Refusal :=
  match s.inputs with
  | [] => .next (idle s)
  | .reset :: rest => .next (performReset { s with inputs := rest })
  | .present p :: rest => perform p { s with inputs := rest }

/-- `s` with a table word presented before everything else, so that the next step performs exactly it (log 18). -/
def State.withFetchWord (s : State) (nbits w : Nat) : State :=
  { s with inputs := .present (tablePresented nbits w) :: s.inputs }

end Sys2Proof.Machine
end

