-- ==== Sys2Proof/Machine/Assembler.lean ====
section
/-! DEFINITION. The assembler of 30_encoding.md R53 and R54: a line of text to the requests it stands for, none where the
line is refused. Character-level details the spec leaves open are log 15. -/

namespace Sys2Proof.Machine

open Sys2Proof

/-- A line of text. -/
abbrev Text := List Char

/-! ### Characters and numbers -/

/-- White space between tokens (log 15). -/
def isBlank (ch : Char) : Bool := ch == ' ' || ch == '\t'

/-- A text without the white space around it. -/
def trimBlanks (t : Text) : Text := ((t.dropWhile isBlank).reverse.dropWhile isBlank).reverse

/-- `;` to the end of the line is a comment (30_encoding.md R53). -/
def stripComment (t : Text) : Text := t.takeWhile (· != ';')

/-- The parts of a text between commas. -/
def splitCommas : Text → List Text
  | [] => [[]]
  | ch :: rest =>
    if ch == ',' then [] :: splitCommas rest
    else match splitCommas rest with
      | [] => [[ch]]
      | part :: parts => (ch :: part) :: parts

/-- The value of a digit in a base up to 16. -/
def digitValue (base : Nat) (ch : Char) : Option Nat :=
  let n := ch.toNat
  let v :=
    if 48 ≤ n && n ≤ 57 then n - 48
    else if 65 ≤ n && n ≤ 70 then n - 55
    else if 97 ≤ n && n ≤ 102 then n - 87
    else 16
  if v < base then some v else none

/-- A non-empty string of digits in a base. -/
def parseDigits (base : Nat) (t : Text) : Option Nat :=
  if t.isEmpty then none
  else t.foldl (fun acc ch => acc.bind fun n => (digitValue base ch).map fun v => n * base + v) (some 0)

/-- A number, decimal or `0x` hexadecimal. -/
def parseNumber (t : Text) : Option Nat :=
  match t with
  | '0' :: 'x' :: rest => parseDigits 16 rest
  | _ => parseDigits 10 t

/-- `<id>` and the bytes `bi`: numbers 0..255, anything else refused (30_encoding.md R53). -/
def parseByte (t : Text) : Option Byte :=
  (parseNumber (trimBlanks t)).bind fun n => if n < 256 then some (BitVec.ofNat 8 n) else none

/-- The name of a channel (30_encoding.md R53). -/
def axisName : Axis → Text
  | .roll => ['r', 'o', 'l', 'l']
  | .pitch => ['p', 'i', 't', 'c', 'h']
  | .yaw => ['y', 'a', 'w']
  | .throttle => ['t', 'h', 'r', 'o', 't', 't', 'l', 'e']
  | .aux1 => ['a', 'u', 'x', '1']
  | .aux2 => ['a', 'u', 'x', '2']
  | .aux3 => ['a', 'u', 'x', '3']
  | .aux4 => ['a', 'u', 'x', '4']

/-- `<axis>`: a number 0..7 or a name. -/
def parseAxis (t : Text) : Option Axis :=
  let t := trimBlanks t
  match axes.find? (axisName · == t) with
  | some a => some a
  | none => (parseNumber t).bind fun n => axes[n]?

/-- `[b0, …, bn−1]`, at most 65535 bytes (30_encoding.md R53). -/
def parseBytes (t : Text) : Option (List Byte) :=
  match trimBlanks t with
  | '[' :: rest =>
    match rest.reverse with
    | ']' :: inner =>
      let inside := trimBlanks inner.reverse
      let bytes := if inside.isEmpty then some [] else (splitCommas inside).mapM parseByte
      bytes.bind fun bs => if bs.length ≤ maxIn then some bs else none
    | _ => none
  | _ => none

/-! ### Values -/

/-- The text before the first character that satisfies `p`, and the text after it if there is one. -/
def cutAt (p : Char → Bool) (t : Text) : Text × Option Text :=
  (t.takeWhile (!p ·), match t.dropWhile (!p ·) with | [] => none | _ :: rest => some rest)

/-- The pattern of `±n/d`: `rne` of the exact value (30_encoding.md R53), none outside the binary64 range (log 15).
DESIGN CHOICE (log 15): `rne` gives the value 0 and no sign of zero, so for a literal that is not zero and rounds to zero
(such as `-1e-400`) the sign of the pattern is that of the literal: `-1e-400` gives −0.0. -/
def patternOfRatio (neg : Bool) (n d : Nat) : Option Word64 :=
  let mag := rneMag (n * unitsPerOne) d
  if mag < 2 ^ 2098 then some (toPattern ⟨neg, mag⟩) else none

/-- An unsigned decimal literal: digits, an optional fraction, an optional power of ten. -/
def parseDecimal (neg : Bool) (t : Text) : Option Word64 :=
  let (mantissa, power) := cutAt (fun ch => ch == 'e' || ch == 'E') t
  let (whole, fraction) := cutAt (· == '.') mantissa
  let fraction? := match fraction with
    | none => some []
    | some f => if f.isEmpty then none else some f
  let exponent : Option (Nat × Nat) := match power with
    | none => some (0, 0)
    | some ('-' :: p) => (parseDigits 10 p).map fun e => (0, e)
    | some ('+' :: p) => (parseDigits 10 p).map fun e => (e, 0)
    | some p => (parseDigits 10 p).map fun e => (e, 0)
  match parseDigits 10 whole, fraction?, exponent with
  | some _, some f, some (up, down) =>
    (parseDigits 10 (whole ++ f)).bind fun n => patternOfRatio neg (n * 10 ^ up) (10 ^ (f.length + down))
  | _, _, _ => none

/-- `<value>` (30_encoding.md R53): `inf`, `-inf`, `nan`, a raw pattern of `0x` and 16 hex digits, or a decimal literal. -/
def parseValue (t : Text) : Option Word64 :=
  match trimBlanks t with
  | ['i', 'n', 'f'] => some 0x7FF0000000000000#64
  | ['-', 'i', 'n', 'f'] => some 0xFFF0000000000000#64
  | ['n', 'a', 'n'] => some 0x7FF8000000000000#64
  | '0' :: 'x' :: digits => if digits.length = 16 then (parseDigits 16 digits).map (BitVec.ofNat 64) else none
  | '-' :: rest => parseDecimal true rest
  | rest => parseDecimal false rest

/-! ### Lines -/

/-- A parsed line: the six requests of 30_encoding.md R53 and the pseudo-instructions of R54. -/
inductive AsmLine where
  | setax (a : Axis) (w : Word64)
  | rdax (a : Axis)
  | bldrc
  | bldcmd (id : Byte) (payload : List Byte)
  | bldsmp (id : Byte)
  | cksum (wire : List Byte)
  | rcinit | arm | disarm | trimUp | trimDown | trimLeft | trimRight
  | center
deriving DecidableEq, Repr

/-- The mnemonics that take no operand. -/
def bareLines : List (Text × AsmLine) :=
  [("BLDRC".toList, .bldrc), ("RCINIT".toList, .rcinit), ("ARM".toList, .arm), ("DISARM".toList, .disarm),
   ("TRIMUP".toList, .trimUp), ("TRIMDOWN".toList, .trimDown), ("TRIMLEFT".toList, .trimLeft),
   ("TRIMRIGHT".toList, .trimRight), ("CENTER".toList, .center)]

/-- Parse the operands of a line with the given mnemonic. -/
def parseOperands (mnemonic operands : Text) : Option AsmLine :=
  if mnemonic == "SETAX".toList then
    match splitCommas operands with
    | [a, v] => (parseAxis a).bind fun a => (parseValue v).map fun w => .setax a w
    | _ => none
  else if mnemonic == "RDAX".toList then (parseAxis operands).map .rdax
  else if mnemonic == "BLDCMD".toList then
    match cutAt (· == ',') operands with
    | (id, some bytes) => (parseByte id).bind fun id => (parseBytes bytes).map fun p => .bldcmd id p
    | (_, none) => none
  else if mnemonic == "BLDSMP".toList then (parseByte operands).map .bldsmp
  else if mnemonic == "CKSUM".toList then (parseBytes operands).map .cksum
  else if operands.isEmpty then (bareLines.find? (·.1 == mnemonic)).map (·.2)
  else none

/-- Parse a line: `none` if it is refused, `some none` if it holds only a comment or nothing. -/
def parseLine (t : Text) : Option (Option AsmLine) :=
  let t := trimBlanks (stripComment t)
  if t.isEmpty then some none
  else (parseOperands (t.takeWhile (!isBlank ·)) (trimBlanks (t.dropWhile (!isBlank ·)))).map some

/-- `SETAX a, w` as a request (30_encoding.md R53). -/
def setaxRequest (a : Axis) (w : Word64) : Request := ReqOp.setax.request (axisBits a) w []

/-- `BLDSMP id` as a request (30_encoding.md R53). -/
def bldsmpRequest (id : Byte) : Request := ReqOp.bldsmp.request (idBits id) 0 []

/-- The requests of a line (30_encoding.md R53), a pseudo-instruction expanded (R54). -/
def AsmLine.requests : AsmLine → List Request
  | .setax a w => [setaxRequest a w]
  | .rdax a => [ReqOp.rdax.request (axisBits a) 0 []]
  | .bldrc => [ReqOp.bldrc.request 0 0 []]
  | .bldcmd id p => [ReqOp.bldcmd.request (idBits id ||| lenBits p.length) 0 p]
  | .bldsmp id => [bldsmpRequest id]
  | .cksum wire => [ReqOp.cksum.request (lenBits wire.length) 0 wire]
  | .rcinit => [bldsmpRequest config.idRcTiny]
  | .arm => [bldsmpRequest config.idArm]
  | .disarm => [bldsmpRequest config.idDisarm]
  | .trimUp => [bldsmpRequest config.idTrimUp]
  | .trimDown => [bldsmpRequest config.idTrimDown]
  | .trimLeft => [bldsmpRequest config.idTrimLeft]
  | .trimRight => [bldsmpRequest config.idTrimRight]
  | .center => axes.map fun a => setaxRequest a 0

/-- The requests of one line of text. -/
def assembleLine (t : Text) : Option (List Request) :=
  (parseLine t).map fun
    | none => []
    | some line => line.requests

/-- The requests of a program text, one request or pseudo-instruction per line, refused if any line is. -/
def assemble (lines : List Text) : Option (List Request) := (lines.mapM assembleLine).map List.flatten

end Sys2Proof.Machine
end

