-- ==== Sys2Proof/Safety.lean ====
section
/-! DEFINITION. The terms the claims are stated in: the invariant of the block, the requests the spec calls illegal, and
rounding to nearest even as a property over the rationals. -/

namespace Sys2Proof.Machine

open Sys2Proof

/-- A pattern the invariant of 10_state.md R7 admits: no NaN, and its value in [−1.0, 1.0]. -/
abbrev InRange (w : Word64) : Prop := isNaN w = false ∧ (f64 negOne).le (f64 w) ∧ (f64 w).le (f64 posOne)

/-- 10_state.md R7, for every channel register. -/
abbrev Channels.inRange (ch : Channels) : Prop := ∀ a ∈ axes, InRange (ch.read a)

/-- What every response looks like (10_state.md R13, 60_exceptions.md R87): `OUT` has at most 261 bytes, and an error
carries neither bytes nor a result. -/
abbrev Response.wellShaped (r : Response) : Prop :=
  r.out.length ≤ 261 ∧ (r.status ≠ .ok → r.out = [] ∧ r.res = 0)

/-- The invariant of the block: R7 for the channels, and the latest response well shaped. -/
def State.Inv (s : State) : Prop := s.ch.inRange ∧ ∀ r, s.response = some r → r.wellShaped

/-- `s` with something presented before everything else. -/
def State.present (s : State) (p : Presented) : State := { s with inputs := .present p :: s.inputs }

/-- The illegal requests, in the words of 30_encoding.md R35 and R39 (and 60_exceptions.md R83): bits of `REQ` and the
length of `IN`, without the decoder's table. -/
def IllegalRequest (q : Request) : Prop :=
  let op := (q.req.extractLsb' 28 4).toNat
  let len := (q.req.extractLsb' 0 16).toNat
  op = 0 ∨ 7 ≤ op
    ∨ ((op = 1 ∨ op = 2) ∧ q.req.extractLsb' 3 25 ≠ 0)
    ∨ (op = 3 ∧ q.req.extractLsb' 0 28 ≠ 0)
    ∨ (op = 4 ∧ q.req.extractLsb' 24 4 ≠ 0)
    ∨ (op = 5 ∧ (q.req.extractLsb' 24 4 ≠ 0 ∨ q.req.extractLsb' 0 16 ≠ 0))
    ∨ (op = 6 ∧ q.req.extractLsb' 16 12 ≠ 0)
    ∨ ((op = 4 ∨ op = 6) ∧ q.inp.length ≠ len)
    ∨ ((op = 1 ∨ op = 2 ∨ op = 3 ∨ op = 5) ∧ q.inp ≠ [])

/-- The real value of a pattern. -/
def valueOf (w : Word64) : ℚ := (f64 w).toRat

/-- `w` is `rne(x)` (00_scope.md section 5): a finite binary64 pattern, none nearer to `x`, and of even fraction when
another value is equally near. -/
structure IsRne (x : ℚ) (w : Word64) : Prop where
  finite : expField w < 2047
  nearest : ∀ u : Word64, expField u < 2047 → |valueOf w - x| ≤ |valueOf u - x|
  even_on_tie : ∀ u : Word64, expField u < 2047 → |valueOf u - x| = |valueOf w - x| → valueOf u ≠ valueOf w →
    fracField w % 2 = 0

end Sys2Proof.Machine
end

