-- ==== Sys2Proof/Certificates/Slice0/Obligations.lean ====
section
/-! DEFINITION. The statements for the provers, from the numbered rules of spec/. -/

open Sys2Proof Sys2Proof.Machine

/-! ### Encoding -/

/-- Decoding the words of a well-formed instruction gives it back, every operand at every value (30_encoding.md R34,
R36, R38, R53; 40_codec.md R62 to R69). The wire-frame form of presentation is log 5. -/
def Obligations.EncodeThenDecode : Prop := ∀ i : Instr, i.wellFormed = true → decode (encode i) = .ok i

/-- A request that decodes is the encoding of what it decodes to: no bit of the request word or of `IN` is dropped, and
`D` is read by `SETAX` alone (30_encoding.md R33, R36 to R38). -/
def Obligations.DecodedRequestReencodes : Prop :=
  ∀ (q : Request) (i : Instr), decode (.request q) = .ok i →
    i.wellFormed = true ∧
      encode i = .request ⟨q.req, if q.req.extractLsb' 28 4 = 1#4 then q.d else 0, q.inp⟩

/-- A wire frame that decodes is the encoding of the command it decodes to (40_codec.md R62 to R69; log 5). -/
def Obligations.DecodedCommandReencodes : Prop :=
  ∀ (wire : List Byte) (i : Instr), decode (.command wire) = .ok i → encode i = .command wire

/-- 30_encoding.md R40 (derived there): no word selects two mnemonics, and every request triple either decodes to the
instruction its mnemonic selects or is answered `ILLEGAL_REQUEST`. -/
def Obligations.RequestDecodingTotalAndUnambiguous : Prop :=
  (∀ (w : Word32) (o o' : ReqOp), o.selects w = true → o'.selects w = true → o = o') ∧
  ∀ q : Request,
    (∃ o : ReqOp, o.selects q.req = true ∧ q.inp.length = o.inLength q.req ∧ decode (.request q) = .ok (o.instr q)) ∨
    ((∀ o : ReqOp, o.selects q.req = true → q.inp.length ≠ o.inLength q.req) ∧
      ∃ r, decode (.request q) = .error r ∧ ∀ s, rejectPresented r s = raise .illegalRequest s)

/-- 60_exceptions.md R83 with 30_encoding.md R35 and R39: every illegal request, in the spec's words about its bits, is
answered `ILLEGAL_REQUEST` and has no other effect. -/
def Obligations.IllegalRequestsAnswered : Prop :=
  ∀ (q : Request) (s : State), IllegalRequest q →
    step (s.present (.request q)) = .next { s with response := some ⟨.illegalRequest, [], 0⟩ }

/-- 60_exceptions.md R84, R85, R86, R88: which status each request reports, in terms of its bits, and that
`ILLEGAL_REQUEST` is checked first. -/
def Obligations.RequestStatusDecidedInOrder : Prop :=
  ∀ (q : Request) (s : State), ∃ (t : State) (r : Response),
    step (s.present (.request q)) = .next t ∧ t.response = some r ∧
    (r.status = .illegalRequest ↔ IllegalRequest q) ∧
    (r.status = .payloadTooLarge ↔
      ¬ IllegalRequest q ∧ q.req.extractLsb' 28 4 = 4#4 ∧ 255 < (q.req.extractLsb' 0 16).toNat) ∧
    (r.status = .checksumLength ↔
      ¬ IllegalRequest q ∧ q.req.extractLsb' 28 4 = 6#4 ∧
        ((q.req.extractLsb' 0 16).toNat < 6 ∨ 261 < (q.req.extractLsb' 0 16).toNat)) ∧
    (r.status = .nanInput ↔ ¬ IllegalRequest q ∧ q.req.extractLsb' 28 4 = 1#4 ∧ isNaN q.d = true)

/-- 30_encoding.md R37: `D` is the value of a legal `SETAX`, and no other request depends on it. -/
def Obligations.DataOperandReadBySetaxAlone : Prop :=
  (∀ q : Request, q.req.extractLsb' 28 4 = 1#4 → ¬ IllegalRequest q →
    ∃ a, decode (.request q) = .ok (.setax a q.d)) ∧
  ∀ (q : Request) (d : Word64) (s : State), q.req.extractLsb' 28 4 ≠ 1#4 →
    step (s.present (.request { q with d := d })) = step (s.present (.request q))

/-- 30_encoding.md R36: the channel each value of `AXIS` selects, for both requests that have the field. -/
def Obligations.AxisFieldSelectsChannel : Prop :=
  ∀ d : Word64,
    axes.map (fun a => (Except.ok (.setax a d) : Except Reject Instr)) =
      (List.range 8).map (fun n => decode (.request ⟨0x10000000#32 + BitVec.ofNat 32 n, d, []⟩)) ∧
    axes.map (fun a => (Except.ok (.rdax a) : Except Reject Instr)) =
      (List.range 8).map (fun n => decode (.request ⟨0x20000000#32 + BitVec.ofNat 32 n, d, []⟩)) ∧
    axes = [.roll, .pitch, .yaw, .throttle, .aux1, .aux2, .aux3, .aux4]

/-- Words of 95_test_vectors.md decode to the instructions they stand for. -/
def Obligations.WordsOfTheSpecDecode : Prop :=
  decode (.request ⟨0x10000007#32, 0x3FECCCCCCCCCCCCD#64, []⟩) = .ok (.setax .aux4 0x3FECCCCCCCCCCCCD#64) ∧
  decode (.request ⟨0x20000003#32, 0#64, []⟩) = .ok (.rdax .throttle) ∧
  decode (.request ⟨0x30000000#32, 0#64, []⟩) = .ok .bldrc ∧
  decode (.request ⟨0x40C80003#32, 0#64, [0x01, 0x02, 0x03]⟩) = .ok (.bldcmd 0xC8 [0x01, 0x02, 0x03]) ∧
  decode (.request ⟨0x509C0000#32, 0#64, []⟩) = .ok (.bldsmp 0x9C) ∧
  decode (.request ⟨0x60000006#32, 0#64, [0x24, 0x4D, 0x3C, 0x00, 0x97, 0x97]⟩) =
    .ok (.cksum [0x24, 0x4D, 0x3C, 0x00, 0x97, 0x97]) ∧
  decode (.request ⟨0x70000000#32, 0#64, []⟩) = .error .reservedOp ∧
  decode (.request ⟨0x41000100#32, 0#64, []⟩) = .error .mustBeZeroBit

/-! ### The step -/

/-- When what is presented next decodes to an instruction, the step is `exec` of it at the state with that event
accepted (20_memory.md R23, R26). -/
def Obligations.StepRunsDecodedInstruction : Prop :=
  ∀ (s : State) (p : Presented) (rest : List HostEvent) (i : Instr),
    s.inputs = .present p :: rest → decode p = .ok i → step s = exec i { s with inputs := rest }

/-- 10_state.md R13: every request produces exactly one response; `OUT` is `[]` or a frame and has at most 261 bytes;
`RES` is 0 unless a `CKSUM` or an `RDAX` succeeded. -/
def Obligations.EveryRequestGetsOneResponse : Prop :=
  ∀ (q : Request) (s : State), ∃ (t : State) (r : Response),
    step (s.present (.request q)) = .next t ∧ t.inputs = s.inputs ∧ t.response = some r ∧
    (r.out = [] ∨ ∃ id p, p.length ≤ 255 ∧ r.out = frame config id p) ∧ r.out.length ≤ 261 ∧
    (r.res ≠ 0 → r.status = .ok ∧
      ((∃ a, decode (.request q) = .ok (.rdax a) ∧ r.res = s.ch.read a) ∨
        ∃ wire, decode (.request q) = .ok (.cksum wire) ∧ r.res = (xorfold (checksummedPart wire)).setWidth 64))

/-- 70_reset_and_hazards.md R98: reset writes +0.0 to every channel. It takes effect between two events and keeps what
is presented after it. That an asserted reset is an event of the list, and that it leaves no response, is the model's
reading (log 4, DEDUCED from R97 and 10_state.md R13). -/
def Obligations.ResetZeroesEveryChannel : Prop :=
  (∀ (s : State) (rest : List HostEvent), s.inputs = .reset :: rest →
    ∃ t, step s = .next t ∧ (∀ a, t.ch.read a = 0x0000000000000000#64) ∧ t.inputs = rest ∧ t.response = none) ∧
  ∀ a, State.reset.ch.read a = 0x0000000000000000#64

/-- 70_reset_and_hazards.md R101 (derived there): the first `BLDRC` after reset gives the neutral frame. -/
def Obligations.FirstFrameAfterResetIsNeutral : Prop :=
  step (State.reset.present (.request ⟨0x30000000#32, 0#64, []⟩)) =
    .next { State.reset with
      response := some ⟨.ok, [0x24, 0x4D, 0x3C, 0x05, 0x96, 0x7D, 0x7D, 0x7D, 0x7D, 0x55, 0xC6], 0⟩ }

/-- 60_exceptions.md R95: the block is idle between requests and keeps its channel registers. That an idle step is a
step at all, with no response, is the model's choice (log 3). -/
def Obligations.IdleBlockKeepsChannels : Prop :=
  ∀ s : State, s.inputs = [] → ∃ t, step s = .next t ∧ t.ch = s.ch ∧ t.inputs = [] ∧ t.response = none

/-- 20_memory.md R23 and R26: a step takes exactly the next event, and what it does depends on no later event. -/
def Obligations.LaterEventsDoNotMatter : Prop :=
  ∀ (s : State) (e : HostEvent) (rest rest' : List HostEvent),
    (∃ t t', step { s with inputs := e :: rest } = .next t ∧ step { s with inputs := e :: rest' } = .next t' ∧
      t.ch = t'.ch ∧ t.response = t'.response ∧ t.inputs = rest ∧ t'.inputs = rest') ∨
    (∃ r, step { s with inputs := e :: rest } = .refused r ∧ step { s with inputs := e :: rest' } = .refused r)

/-- 10_state.md R7 (derived there) and the shape of responses: every step keeps the invariant. -/
def Obligations.EveryStepKeepsTheInvariant : Prop :=
  ∀ s t : State, s.Inv → step s = .next t → t.Inv

/-- The invariant holds after reset (10_state.md R7, 70_reset_and_hazards.md R98). -/
def Obligations.ResetMeetsTheInvariant : Prop := State.reset.Inv

/-- 10_state.md R8: a channel register is written only by a `SETAX` of that channel and by reset; what a request other
than `SETAX`, `RDAX` and `BLDRC` answers depends on no channel register. -/
def Obligations.ChannelsWrittenOnlyBySetaxAndReset : Prop :=
  (∀ (s t : State) (a : Axis), step s = .next t → t.ch.read a ≠ s.ch.read a →
    (∃ rest, s.inputs = .reset :: rest) ∨
    ∃ p d rest, s.inputs = .present p :: rest ∧ decode p = .ok (.setax a d)) ∧
  ∀ (i : Instr) (s : State) (ch : Channels), (∀ a d, i ≠ .setax a d) → (∀ a, i ≠ .rdax a) → i ≠ .bldrc →
    ∃ r, exec i s = .next { s with response := some r } ∧
      exec i { s with ch := ch } = .next { s with ch := ch, response := some r }

/-! ### Errors -/

/-- 60_exceptions.md R87: an error writes no channel register, `OUT` is `[]`, `RES` is 0; all that differs in the state
after it is that the request is accepted and answered. -/
def Obligations.ErrorsHaveNoEffect : Prop :=
  ∀ (s t : State) (r : Response), step s = .next t → t.response = some r → r.status ≠ .ok →
    t.ch = s.ch ∧ t.inputs = s.inputs.tail ∧ r.out = [] ∧ r.res = 0

/-- 60_exceptions.md R82: the status codes, no code above `0x04`, and the only causes of each. -/
def Obligations.StatusCodesAndCauses : Prop :=
  (Status.code .ok = 0x00 ∧ Status.code .illegalRequest = 0x01 ∧ Status.code .payloadTooLarge = 0x02 ∧
    Status.code .checksumLength = 0x03 ∧ Status.code .nanInput = 0x04 ∧ ∀ st : Status, st.code.toNat ≤ 4) ∧
  ∀ (s t : State) (r : Response), step s = .next t → t.response = some r →
    (r.status = .illegalRequest → ∃ q rest, s.inputs = .present (.request q) :: rest ∧ IllegalRequest q) ∧
    (r.status = .payloadTooLarge → ∃ p rest id payload, s.inputs = .present p :: rest ∧
      decode p = .ok (.bldcmd id payload) ∧ 255 < payload.length) ∧
    (r.status = .checksumLength → ∃ p rest wire, s.inputs = .present p :: rest ∧
      decode p = .ok (.cksum wire) ∧ (wire.length < 6 ∨ 261 < wire.length)) ∧
    (r.status = .nanInput → ∃ p rest a d, s.inputs = .present p :: rest ∧
      decode p = .ok (.setax a d) ∧ isNaN d = true)

/-! ### The requests -/

/-- 41_channel.md R78, `SETAX`: encoding, result, errors and corner cases. -/
def Obligations.SetaxStoresTheClampedValue : Prop :=
  (∀ q : Request, q.req &&& 0xFFFFFFF8#32 = 0x10000000#32 → q.inp = [] →
    decode (.request q) = .ok (.setax (axisOf (q.req.extractLsb' 0 3)) q.d)) ∧
  (∀ (q : Request) (s : State), q.req.extractLsb' 28 4 = 1#4 → (q.req.extractLsb' 3 25 ≠ 0 ∨ q.inp ≠ []) →
    step (s.present (.request q)) = .next { s with response := some ⟨.illegalRequest, [], 0⟩ }) ∧
  (∀ (a : Axis) (d : Word64) (s : State), isNaN d = false →
    ∃ t, exec (.setax a d) s = .next t ∧ t.ch.read a = clamp d ∧ (∀ b, b ≠ a → t.ch.read b = s.ch.read b) ∧
      t.inputs = s.inputs ∧ t.response = some ⟨.ok, [], 0⟩) ∧
  (∀ (a : Axis) (d : Word64) (s : State), isNaN d = true →
    exec (.setax a d) s = .next { s with response := some ⟨.nanInput, [], 0⟩ }) ∧
  (∀ (a : Axis) (s t : State), exec (.setax a 0x7FF0000000000000#64) s = .next t →
    t.ch.read a = 0x3FF0000000000000#64) ∧
  (∀ (a : Axis) (s t : State), exec (.setax a 0xFFF0000000000000#64) s = .next t →
    t.ch.read a = 0xBFF0000000000000#64) ∧
  (∀ (a : Axis) (d : Word64) (s t : State),
    (d = 0x8000000000000000#64 ∨ d = 0x3FF0000000000000#64 ∨ d = 0xBFF0000000000000#64 ∨ expField d = 0) →
    exec (.setax a d) s = .next t → t.ch.read a = d) ∧
  (∀ (a : Axis) (d d' : Word64) (s t u v : State), isNaN d' = false → exec (.setax a d) s = .next t →
    exec (.setax a d') t = .next u → exec (.setax a d') s = .next v → u = v) ∧
  (∀ s : State, exec (.setax .roll 0x3FFB333333333333#64) s =
    .next { s with ch := { s.ch with roll := 0x3FF0000000000000#64 }, response := some ⟨.ok, [], 0⟩ })

/-- 41_channel.md R79, `RDAX`: encoding, result, errors and corner cases. -/
def Obligations.RdaxReadsTheChannel : Prop :=
  (∀ q : Request, q.req &&& 0xFFFFFFF8#32 = 0x20000000#32 → q.inp = [] →
    decode (.request q) = .ok (.rdax (axisOf (q.req.extractLsb' 0 3)))) ∧
  (∀ (q : Request) (s : State), q.req.extractLsb' 28 4 = 2#4 → (q.req.extractLsb' 3 25 ≠ 0 ∨ q.inp ≠ []) →
    step (s.present (.request q)) = .next { s with response := some ⟨.illegalRequest, [], 0⟩ }) ∧
  (∀ (a : Axis) (s : State),
    exec (.rdax a) s = .next { s with response := some ⟨.ok, [], s.ch.read a⟩ }) ∧
  (∀ (a : Axis) (d : Word64) (s t : State), isNaN d = false → exec (.setax a d) s = .next t →
    exec (.rdax a) t = .next { t with response := some ⟨.ok, [], clamp d⟩ }) ∧
  (∀ a : Axis, exec (.rdax a) State.reset = .next { State.reset with response := some ⟨.ok, [], 0⟩ })

/-- 41_channel.md R80, `BLDRC`: encoding, the whole 11-byte frame of the current channels, errors and corner cases. The
channels are those the invariant R7 admits (a NaN in a channel is log 12). -/
def Obligations.BldrcBuildsTheRcFrame : Prop :=
  decode (.request ⟨0x30000000#32, 0, []⟩) = .ok .bldrc ∧
  (∀ (q : Request) (s : State), q.req.extractLsb' 28 4 = 3#4 → (q.req ≠ 0x30000000#32 ∨ q.inp ≠ []) →
    step (s.present (.request q)) = .next { s with response := some ⟨.illegalRequest, [], 0⟩ }) ∧
  (∀ s : State, s.Inv →
    let r := quantize config s.ch.roll
    let p := quantize config s.ch.pitch
    let y := quantize config s.ch.yaw
    let t := quantize config s.ch.throttle
    let x := auxpack config s.ch.aux1 s.ch.aux2 s.ch.aux3 s.ch.aux4
    exec .bldrc s = .next { s with
      response := some ⟨.ok, [0x24, 0x4D, 0x3C, 0x05, 0x96, r, p, y, t, x, 0x93 ^^^ r ^^^ p ^^^ y ^^^ t ^^^ x], 0⟩ }) ∧
  (∀ s t : State, s.Inv → exec .bldrc s = .next t → exec .bldrc t = .next t) ∧
  exec .bldrc State.reset = .next { State.reset with
    response := some ⟨.ok, [0x24, 0x4D, 0x3C, 0x05, 0x96, 0x7D, 0x7D, 0x7D, 0x7D, 0x55, 0xC6], 0⟩ }

/-- 40_codec.md R59, `BLDCMD`: encoding, result for every id and every payload of at most 255 bytes, errors and corner
cases. That `LEN = 0` gives what `BLDSMP` gives is the spec's inference (derived there from R57 and R60). -/
def Obligations.BldcmdFramesThePayload : Prop :=
  (∀ q : Request, q.req &&& 0xFF000000#32 = 0x40000000#32 → q.inp.length = (q.req.extractLsb' 0 16).toNat →
    decode (.request q) = .ok (.bldcmd (q.req.extractLsb' 16 8) q.inp)) ∧
  (∀ (q : Request) (s : State), q.req.extractLsb' 28 4 = 4#4 →
    (q.req.extractLsb' 24 4 ≠ 0 ∨ q.inp.length ≠ (q.req.extractLsb' 0 16).toNat) →
    step (s.present (.request q)) = .next { s with response := some ⟨.illegalRequest, [], 0⟩ }) ∧
  (∀ (id : Byte) (p : List Byte) (s : State), p.length ≤ 255 →
    exec (.bldcmd id p) s = .next { s with response := some ⟨.ok, frame config id p, 0⟩ }) ∧
  (∀ (id : Byte) (p : List Byte) (s : State), 255 < p.length →
    exec (.bldcmd id p) s = .next { s with response := some ⟨.payloadTooLarge, [], 0⟩ }) ∧
  (∀ (id : Byte) (s : State), exec (.bldcmd id []) s = exec (.bldsmp id) s) ∧
  (∀ (id : Byte) (p : List Byte), p.length = 255 → (frame config id p).length = 261) ∧
  (∀ id : Byte, frame config id [id] = [0x24, 0x4D, 0x3C, 0x01, id, id, 0x01]) ∧
  frame config 0x24 [0x24, 0x4D, 0x3C] = [0x24, 0x4D, 0x3C, 0x03, 0x24, 0x24, 0x4D, 0x3C, 0x72] ∧
  frame config 0xC8 [0x01, 0x02, 0x03] = [0x24, 0x4D, 0x3C, 0x03, 0xC8, 0x01, 0x02, 0x03, 0xCB]

/-- 40_codec.md R60, `BLDSMP`: encoding, result for every id, errors and corner cases. -/
def Obligations.BldsmpFramesTheId : Prop :=
  (∀ q : Request, q.req &&& 0xFF00FFFF#32 = 0x50000000#32 → q.inp = [] →
    decode (.request q) = .ok (.bldsmp (q.req.extractLsb' 16 8))) ∧
  (∀ (q : Request) (s : State), q.req.extractLsb' 28 4 = 5#4 →
    (q.req.extractLsb' 24 4 ≠ 0 ∨ q.req.extractLsb' 0 16 ≠ 0 ∨ q.inp ≠ []) →
    step (s.present (.request q)) = .next { s with response := some ⟨.illegalRequest, [], 0⟩ }) ∧
  (∀ (id : Byte) (s : State), exec (.bldsmp id) s =
    .next { s with response := some ⟨.ok, [0x24, 0x4D, 0x3C, 0x00, id, id], 0⟩ })

/-- 40_codec.md R61, `CKSUM`: encoding, result, errors and corner cases. The three header bytes and the trailing byte are
free, so they do not matter; of a frame the block builds, `RES` is the last byte. -/
def Obligations.CksumFoldsTheFrame : Prop :=
  (∀ q : Request, q.req &&& 0xFFFF0000#32 = 0x60000000#32 → q.inp.length = (q.req.extractLsb' 0 16).toNat →
    decode (.request q) = .ok (.cksum q.inp)) ∧
  (∀ (q : Request) (s : State), q.req.extractLsb' 28 4 = 6#4 →
    (q.req.extractLsb' 16 12 ≠ 0 ∨ q.inp.length ≠ (q.req.extractLsb' 0 16).toNat) →
    step (s.present (.request q)) = .next { s with response := some ⟨.illegalRequest, [], 0⟩ }) ∧
  (∀ (h0 h1 h2 last : Byte) (body : List Byte) (s : State), 2 ≤ body.length → body.length ≤ 257 →
    exec (.cksum ([h0, h1, h2] ++ body ++ [last])) s =
      .next { s with response := some ⟨.ok, [], (xorfold body).setWidth 64⟩ }) ∧
  (∀ (wire : List Byte) (s : State), (wire.length < 6 ∨ 261 < wire.length) →
    exec (.cksum wire) s = .next { s with response := some ⟨.checksumLength, [], 0⟩ }) ∧
  (∀ (id : Byte) (p : List Byte) (s : State), p.length ≤ 255 →
    ∃ last, (frame config id p).getLast? = some last ∧
      exec (.cksum (frame config id p)) s = .next { s with response := some ⟨.ok, [], last.setWidth 64⟩ }) ∧
  (∀ s : State, exec (.cksum [0x24, 0x4D, 0x3C, 0x05, 0x96, 0x7D, 0x7D, 0x7D, 0x7D, 0x55, 0xC6]) s =
    .next { s with response := some ⟨.ok, [], 0x00000000000000C6#64⟩ })

/-! ### The named commands -/

/-- 40_codec.md R63 to R69 (the spec derives them from R57 and the ids of 30_encoding.md R48): the frame of every named
simple command, and the `BLDSMP` that produces it. That a named command is performed as an instruction of its own, and
presented by its frame, is the model's choice (log 5). -/
def Obligations.SimpleCommandsBuildTheirFrames : Prop :=
  ∀ s : State,
    let answers (id : Byte) : Result := .next { s with response := some ⟨.ok, [0x24, 0x4D, 0x3C, 0x00, id, id], 0⟩ }
    (exec .rcinit s = answers 0x96 ∧ exec (.bldsmp 0x96) s = answers 0x96) ∧
    (exec .arm s = answers 0x97 ∧ exec (.bldsmp 0x97) s = answers 0x97) ∧
    (exec .disarm s = answers 0x98 ∧ exec (.bldsmp 0x98) s = answers 0x98) ∧
    (exec .trimUp s = answers 0x99 ∧ exec (.bldsmp 0x99) s = answers 0x99) ∧
    (exec .trimDown s = answers 0x9A ∧ exec (.bldsmp 0x9A) s = answers 0x9A) ∧
    (exec .trimLeft s = answers 0x9B ∧ exec (.bldsmp 0x9B) s = answers 0x9B) ∧
    (exec .trimRight s = answers 0x9C ∧ exec (.bldsmp 0x9C) s = answers 0x9C)

/-- 40_codec.md R62: the RC frame of five payload bytes, and that `BLDRC` produces it for the bytes of 30_encoding.md R50.
R62 says only that `BLDRC` produces the frame. That `SET_RAW_RC_TINY` is performed as an instruction of its own, and
presented by its frame, is the model's choice (log 5), and that it takes any five bytes is the model's reading (log 7). -/
def Obligations.RcFrameCommandBuildsItsFrame : Prop :=
  (∀ (r p y t x : Byte) (s : State), exec (.setRawRcTiny r p y t x) s = .next { s with
    response := some ⟨.ok, [0x24, 0x4D, 0x3C, 0x05, 0x96, r, p, y, t, x,
      0x05 ^^^ 0x96 ^^^ r ^^^ p ^^^ y ^^^ t ^^^ x], 0⟩ }) ∧
  (∀ s : State, s.Inv → exec .bldrc s =
    exec (.setRawRcTiny (quantize config s.ch.roll) (quantize config s.ch.pitch) (quantize config s.ch.yaw)
      (quantize config s.ch.throttle) (auxpack config s.ch.aux1 s.ch.aux2 s.ch.aux3 s.ch.aux4)) s) ∧
  (∀ s : State, exec (.setRawRcTiny 0x7D 0x7D 0x7D 0x7D 0x55) s = .next { s with
    response := some ⟨.ok, [0x24, 0x4D, 0x3C, 0x05, 0x96, 0x7D, 0x7D, 0x7D, 0x7D, 0x55, 0xC6], 0⟩ })

/-- A wire frame that is the encoding of no instruction is refused: the model's choice (log 6). -/
def Obligations.WireOfNoCommandIsRefused : Prop :=
  ∀ (wire : List Byte) (s : State), (∀ i, encode i ≠ .command wire) →
    step (s.present (.command wire)) = .refused .notNamedCommand

/-! ### The framer's functions -/

/-- 30_encoding.md R41 to R44 and R47: every byte of a frame, by its index. -/
def Obligations.FrameLayout : Prop :=
  ∀ (id : Byte) (p : List Byte), p.length ≤ 255 →
    let f := frame config id p
    f.length = 6 + p.length ∧
    f[0]? = some 0x24 ∧ f[1]? = some 0x4D ∧ f[2]? = some 0x3C ∧
    (f[3]?).map BitVec.toNat = some p.length ∧ f[4]? = some id ∧
    (∀ k, k < p.length → f[5 + k]? = p[k]?) ∧
    f[5 + p.length]? = some (xorfold ((f.drop 3).take (2 + p.length)))

/-- 40_codec.md R58 (derived there): the checksum is the fold of bytes 3 .. 4+n, and folding it in gives 0. -/
def Obligations.ChecksumLaw : Prop :=
  ∀ (c : Config) (id : Byte) (p : List Byte),
    (frame c id p).getLast? = some (xorfold ((frame c id p).drop 3).dropLast) ∧
    xorfold ((frame c id p).drop 3) = 0

/-- 40_codec.md R56: the fold of no bytes is 0, and the order of the bytes does not matter (derived there). -/
def Obligations.XorfoldIgnoresOrder : Prop :=
  xorfold [] = 0 ∧ (∀ (b : Byte) (s : List Byte), xorfold (b :: s) = b ^^^ xorfold s) ∧
  ∀ s t : List Byte, s.Perm t → xorfold s = xorfold t

/-- 30_encoding.md R46 (derived there): a reader of a byte stream finds the end of a frame from its byte 3. -/
def Obligations.FrameDelimitsItself : Prop :=
  ∀ (id : Byte) (p rest : List Byte), p.length ≤ 255 →
    ∃ n, frameLengthInStream (frame config id p ++ rest) = some n ∧
      (frame config id p ++ rest).take n = frame config id p ∧ (frame config id p ++ rest).drop n = rest

/-- 40_codec.md R70 and 00_scope.md R2: a framer request's response depends on the request alone, and it changes nothing
but the response. -/
def Obligations.FramerDependsOnTheRequestAlone : Prop :=
  ∀ (i : Instr) (s t : State), (∀ a d, i ≠ .setax a d) → (∀ a, i ≠ .rdax a) → i ≠ .bldrc →
    ∃ r, exec i s = .next { s with response := some r } ∧ exec i t = .next { t with response := some r }

/-! ### The channel unit's functions -/

/-- 41_channel.md R71: `clamp`, its range, its fixed points and its corner cases. -/
def Obligations.ClampRule : Prop :=
  (∀ w : Word64, isNaN w = false →
    (valueOf w < -1 → clamp w = 0xBFF0000000000000#64) ∧ (1 < valueOf w → clamp w = 0x3FF0000000000000#64) ∧
    (-1 ≤ valueOf w → valueOf w ≤ 1 → clamp w = w) ∧
    isNaN (clamp w) = false ∧ -1 ≤ valueOf (clamp w) ∧ valueOf (clamp w) ≤ 1 ∧ clamp (clamp w) = clamp w) ∧
  clamp 0x7FF0000000000000#64 = 0x3FF0000000000000#64 ∧ clamp 0xFFF0000000000000#64 = 0xBFF0000000000000#64 ∧
  clamp 0x8000000000000000#64 = 0x8000000000000000#64 ∧ clamp 0xBFF0000000000000#64 = 0xBFF0000000000000#64 ∧
  clamp 0x3FF0000000000000#64 = 0x3FF0000000000000#64

/-- 41_channel.md R72: the byte is the floor of `|500 + 500*v| / 4` with one rounding to nearest even after the product
and one after the sum, rounding being the property over the rationals; and the corner cases of the rule. -/
def Obligations.QuantizeRoundsStepByStep : Prop :=
  (∀ w : Word64, isNaN w = false → ∃ t1 t2 : Word64,
    IsRne (500 * valueOf (clamp w)) t1 ∧ -500 ≤ valueOf t1 ∧ valueOf t1 ≤ 500 ∧
    IsRne (500 + valueOf t1) t2 ∧ 0 ≤ valueOf t2 ∧ valueOf t2 ≤ 1000 ∧
    ((quantize config w).toNat : ℤ) = ⌊|valueOf t2| / 4⌋ ∧ (quantize config w).toNat ≤ 250) ∧
  (∀ w : Word64, expField w = 0 → quantize config w = 125) ∧
  quantize config 0xBFF0000000000000#64 = 0 ∧ quantize config 0x3FF0000000000000#64 = 250 ∧
  quantize config 0x0000000000000000#64 = 125 ∧ quantize config 0x8000000000000000#64 = 125 ∧
  quantize config 0x3FE0000000000000#64 = 187 ∧ quantize config 0xBFE0000000000000#64 = 62 ∧
  quantize config 0xBFE999999999999A#64 = 25 ∧ quantize config 0x3FEFBE76C8B43958#64 = 249 ∧
  quantize config 0x3FEFFFFFFFFFFFFF#64 = 250

/-- 41_channel.md R73 (derived there from R72): `quantize` is monotone and bounded by 250. -/
def Obligations.QuantizeMonotoneAndBounded : Prop :=
  (∀ w : Word64, isNaN w = false → (quantize config w).toNat ≤ 250) ∧
  ∀ w1 w2 : Word64, isNaN w1 = false → isNaN w2 = false → valueOf w1 ≤ valueOf w2 →
    (quantize config w1).toNat ≤ (quantize config w2).toNat

/-- 41_channel.md R74 (derived there): clamping happens before scaling. -/
def Obligations.QuantizeClampsFirst : Prop :=
  ∀ w : Word64, isNaN w = false →
    quantize config w = quantize config (clamp w) ∧
    (valueOf w < -1 → quantize config w = 0) ∧ (1 < valueOf w → quantize config w = 250)

/-- 41_channel.md R75: the tri-state code by the value's place among the two thresholds, its corner cases, and that
clamping does not change it, which is the spec's inference (derived there from R71). -/
def Obligations.AuxcodeByThresholds : Prop :=
  (∀ w : Word64, isNaN w = false →
    (valueOf w < valueOf 0xBFE54FDF3B645A1D#64 → auxcode config w = 0b00#2) ∧
    (valueOf 0xBFE54FDF3B645A1D#64 ≤ valueOf w → valueOf w < valueOf 0x3FD54FDF3B645A1D#64 →
      auxcode config w = 0b01#2) ∧
    (valueOf 0x3FD54FDF3B645A1D#64 ≤ valueOf w → auxcode config w = 0b10#2) ∧
    auxcode config (clamp w) = auxcode config w) ∧
  auxcode config 0xBFE54FDF3B645A1D#64 = 0b01#2 ∧ auxcode config 0xBFE54FDF3B645A1E#64 = 0b00#2 ∧
  auxcode config 0x3FD54FDF3B645A1D#64 = 0b10#2 ∧ auxcode config 0x3FD54FDF3B645A1C#64 = 0b01#2 ∧
  auxcode config 0x8000000000000000#64 = 0b01#2 ∧ auxcode config 0x0000000000000000#64 = 0b01#2 ∧
  auxcode config 0xBFF0000000000000#64 = 0b00#2 ∧ auxcode config 0x3FF0000000000000#64 = 0b10#2

/-- 00_scope.md R4, rows `AUX_T_LO` and `AUX_T_HI` (derived there): the patterns are the binary64 values nearest to −0.666
and to 0.333. -/
def Obligations.AuxThresholdsAreNearest : Prop :=
  IsRne (-(666 / 1000)) config.auxTLo ∧ IsRne (333 / 1000) config.auxTHi

/-- 41_channel.md R76 with 30_encoding.md R51 and R52: each aux field holds its own axis's code, the code is 00, 01 or 10,
and all four at 0.0 give `0x55`. -/
def Obligations.AuxFieldsDoNotBleed : Prop :=
  (∀ w4 w5 w6 w7 : Word64,
    (auxpack config w4 w5 w6 w7).extractLsb' 6 2 = auxcode config w4 ∧
    (auxpack config w4 w5 w6 w7).extractLsb' 4 2 = auxcode config w5 ∧
    (auxpack config w4 w5 w6 w7).extractLsb' 2 2 = auxcode config w6 ∧
    (auxpack config w4 w5 w6 w7).extractLsb' 0 2 = auxcode config w7) ∧
  (∀ w : Word64, auxcode config w = 0b00#2 ∨ auxcode config w = 0b01#2 ∨ auxcode config w = 0b10#2) ∧
  auxpack config 0 0 0 0 = 0x55

/-- 41_channel.md R81 (derived there): with every channel at +0.0 or −0.0, in any mixture, `BLDRC` gives the neutral
frame. -/
def Obligations.SignedZerosGiveTheNeutralFrame : Prop :=
  ∀ s : State, (∀ a, s.ch.read a = 0x0000000000000000#64 ∨ s.ch.read a = 0x8000000000000000#64) →
    exec .bldrc s = .next { s with
      response := some ⟨.ok, [0x24, 0x4D, 0x3C, 0x05, 0x96, 0x7D, 0x7D, 0x7D, 0x7D, 0x55, 0xC6], 0⟩ }

/-! ### Sequences of requests -/

/-- 20_memory.md R24 (derived there): a `BLDRC` after any sequence of `SETAX` requests frames the channels that all of
them leave, whatever is presented after it. -/
def Obligations.SnapshotSeesEveryEarlierWrite : Prop :=
  ∀ (writes : List (Axis × Word64)) (s : State) (rest : List HostEvent), (∀ x ∈ writes, isNaN x.2 = false) →
    s.inputs = writes.map (fun x => .present (.request (setaxRequest x.1 x.2))) ++
      .present (.request ⟨0x30000000#32, 0, []⟩) :: rest →
    let ch := writes.foldl (fun ch x => ch.write x.1 (clamp x.2)) s.ch
    Sys2Proof.core.run (writes.length + 1) s = .next ⟨ch, rest, some ⟨.ok,
      frame config 0x96 [quantize config ch.roll, quantize config ch.pitch, quantize config ch.yaw,
        quantize config ch.throttle, auxpack config ch.aux1 ch.aux2 ch.aux3 ch.aux4], 0⟩⟩

/-- 70_reset_and_hazards.md R104 (derived there): a channel write is seen by the very next request. -/
def Obligations.NextRequestSeesTheWrite : Prop :=
  ∀ (a b : Axis) (d e : Word64) (s : State) (rest : List HostEvent), isNaN d = false →
    s.inputs = .present (.request ⟨0x10000000#32 ||| (axisNumber a).setWidth 32, d, []⟩) ::
      .present (.request ⟨0x20000000#32 ||| (axisNumber b).setWidth 32, e, []⟩) :: rest →
    ∃ t, Sys2Proof.core.run 2 s = .next t ∧ t.inputs = rest ∧
      t.response = some ⟨.ok, [], if b = a then clamp d else s.ch.read b⟩

/-- 70_reset_and_hazards.md R102 with 30_encoding.md R54: the eight requests of `CENTER` put every channel at +0.0 from any
state. -/
def Obligations.CenterCentresEveryChannel : Prop :=
  ∀ (s : State) (rest : List HostEvent),
    s.inputs = (AsmLine.center).requests.map (fun q => .present (.request q)) ++ rest →
    ∃ t, Sys2Proof.core.run 8 s = .next t ∧ (∀ a, t.ch.read a = 0x0000000000000000#64) ∧ t.inputs = rest

/-! ### The assembler -/

/-- 30_encoding.md R54: the expansion of every pseudo-instruction. -/
def Obligations.PseudoInstructionsExpand : Prop :=
  (AsmLine.rcinit).requests = [⟨0x50960000#32, 0, []⟩] ∧ (AsmLine.arm).requests = [⟨0x50970000#32, 0, []⟩] ∧
  (AsmLine.disarm).requests = [⟨0x50980000#32, 0, []⟩] ∧ (AsmLine.trimUp).requests = [⟨0x50990000#32, 0, []⟩] ∧
  (AsmLine.trimDown).requests = [⟨0x509A0000#32, 0, []⟩] ∧ (AsmLine.trimLeft).requests = [⟨0x509B0000#32, 0, []⟩] ∧
  (AsmLine.trimRight).requests = [⟨0x509C0000#32, 0, []⟩] ∧
  (AsmLine.center).requests = [⟨0x10000000#32, 0, []⟩, ⟨0x10000001#32, 0, []⟩, ⟨0x10000002#32, 0, []⟩,
    ⟨0x10000003#32, 0, []⟩, ⟨0x10000004#32, 0, []⟩, ⟨0x10000005#32, 0, []⟩, ⟨0x10000006#32, 0, []⟩,
    ⟨0x10000007#32, 0, []⟩]

/-- 30_encoding.md R53: every request line the assembler reads decodes to the instruction its mnemonic names, with the
operands written. -/
def Obligations.AssembledLinesDecode : Prop :=
  (∀ a w, (AsmLine.setax a w).requests.map (fun q => decode (.request q)) = [.ok (.setax a w)]) ∧
  (∀ a, (AsmLine.rdax a).requests.map (fun q => decode (.request q)) = [.ok (.rdax a)]) ∧
  (AsmLine.bldrc).requests.map (fun q => decode (.request q)) = [.ok .bldrc] ∧
  (∀ id p, p.length ≤ 65535 → (AsmLine.bldcmd id p).requests.map (fun q => decode (.request q)) = [.ok (.bldcmd id p)]) ∧
  (∀ id, (AsmLine.bldsmp id).requests.map (fun q => decode (.request q)) = [.ok (.bldsmp id)]) ∧
  (∀ wire, wire.length ≤ 65535 → (AsmLine.cksum wire).requests.map (fun q => decode (.request q)) = [.ok (.cksum wire)])
end

