-- ==== Sys2Proof/Laws/Binary64.lean ====
section
/-! SUPPORT. Rounding to nearest even: how near, ties, order, exact values; and what `clamp`, `fmul` and `fadd` do to the
signed value. -/

namespace Sys2Proof.Machine

open Sys2Proof

/-! ### Rounding a quotient to a whole number -/

/-- The rounded quotient is within half a divisor. -/
theorem nearestEven_near {d : Nat} (hd : 0 < d) (n : Nat) :
    2 * (nearestEven n d * d) ≤ 2 * n + d ∧ 2 * n ≤ 2 * (nearestEven n d * d) + d := by
  have h := Nat.div_add_mod n d
  have hr := Nat.mod_lt n hd
  have e : (n / d + 1) * d = d * (n / d) + d := by ring
  have e' : n / d * d = d * (n / d) := Nat.mul_comm _ _
  unfold nearestEven
  dsimp only
  split_ifs <;> (first | rw [e] | rw [e']) <;> omega

/-- At exactly half a divisor the even neighbour is taken. -/
theorem nearestEven_even_of_tie {d : Nat} (hd : 0 < d) {n : Nat}
    (h : 2 * (nearestEven n d * d) = 2 * n + d ∨ 2 * n = 2 * (nearestEven n d * d) + d) :
    nearestEven n d % 2 = 0 := by
  have hn := Nat.div_add_mod n d
  have hr := Nat.mod_lt n hd
  have e : (n / d + 1) * d = d * (n / d) + d := by ring
  have e' : n / d * d = d * (n / d) := Nat.mul_comm _ _
  revert h
  unfold nearestEven
  dsimp only
  split_ifs <;> (first | rw [e] | rw [e']) <;> omega

theorem nearestEven_mul_right {d : Nat} (hd : 0 < d) (m : Nat) : nearestEven (m * d) d = m := by
  simp [nearestEven, Nat.mul_div_cancel _ hd, hd]

theorem nearestEven_mono {d : Nat} (hd : 0 < d) {n n' : Nat} (h : n ≤ n') : nearestEven n d ≤ nearestEven n' d := by
  have h1 := (nearestEven_near hd n).1
  have h2 := (nearestEven_near hd n').2
  by_contra hc
  have hlt : nearestEven n' d + 1 ≤ nearestEven n d := by omega
  have hm : (nearestEven n' d + 1) * d ≤ nearestEven n d * d := Nat.mul_le_mul_right d hlt
  have hexp : (nearestEven n' d + 1) * d = nearestEven n' d * d + d := by ring
  have hnn : n = n' := by omega
  subst hnn
  omega

/-! ### The last place -/

theorem ulp_pos (q : Nat) : 0 < ulp q := Nat.two_pow_pos _

theorem ulp_mono {q q' : Nat} (h : q ≤ q') : ulp q ≤ ulp q' := by
  unfold ulp
  apply Nat.pow_le_pow_right (by decide)
  have := Nat.log2_eq_log_two (n := q)
  have := Nat.log2_eq_log_two (n := q')
  have := Nat.log_mono_right (b := 2) h
  omega

theorem lt_two_pow_mul_ulp (q : Nat) : q < 2 ^ 53 * ulp q := by
  unfold ulp
  rw [← Nat.pow_add]
  rcases Nat.eq_zero_or_pos q with rfl | hq
  · exact Nat.two_pow_pos _
  · exact (Nat.log2_lt (by omega)).1 (by omega)

theorem two_pow_mul_ulp_le {q : Nat} (h : 1 < ulp q) : 2 ^ 52 * ulp q ≤ q := by
  unfold ulp at *
  have hk : 52 < q.log2 := by
    by_contra hc
    have : q.log2 - 52 = 0 := by omega
    rw [this] at h
    exact absurd h (by decide)
  rw [← Nat.pow_add]
  have hq : q ≠ 0 := by rintro rfl; exact absurd hk (by decide)
  exact (Nat.le_log2 hq).1 (by omega)

/-! ### Rounding to a binary64 magnitude -/

/-- Rounding keeps order. -/
theorem rneMag_mono {d : Nat} (hd : 0 < d) {n n' : Nat} (h : n ≤ n') : rneMag n d ≤ rneMag n' d := by
  unfold rneMag
  have hq : n / d ≤ n' / d := Nat.div_le_div_right h
  have hu : ulp (n / d) ≤ ulp (n' / d) := ulp_mono hq
  have hp := ulp_pos (n / d)
  have hp' := ulp_pos (n' / d)
  rcases Nat.eq_or_lt_of_le hu with he | hlt
  · rw [← he]
    exact Nat.mul_le_mul_right _ (nearestEven_mono (Nat.mul_pos hd hp) h)
  · -- the lower one rounds to at most the end of its binade
    have h1 : n ≤ 2 ^ 53 * (d * ulp (n / d)) := by
      have := lt_two_pow_mul_ulp (n / d)
      have h2 : n < d * (n / d + 1) := Nat.lt_mul_div_succ n hd
      have h3 : d * (n / d + 1) ≤ d * (2 ^ 53 * ulp (n / d)) := Nat.mul_le_mul_left d this
      calc n ≤ d * (2 ^ 53 * ulp (n / d)) := by omega
        _ = _ := by ring
    have h2 : nearestEven n (d * ulp (n / d)) ≤ 2 ^ 53 := by
      have := nearestEven_mono (Nat.mul_pos hd hp) h1
      rwa [nearestEven_mul_right (Nat.mul_pos hd hp)] at this
    have h3 : 2 ^ 52 * (d * ulp (n' / d)) ≤ n' := by
      have := two_pow_mul_ulp_le (q := n' / d) (by omega)
      calc 2 ^ 52 * (d * ulp (n' / d)) = d * (2 ^ 52 * ulp (n' / d)) := by ring
        _ ≤ d * (n' / d) := Nat.mul_le_mul_left d this
        _ ≤ n' := Nat.mul_div_le n' d
    have h4 : 2 ^ 52 ≤ nearestEven n' (d * ulp (n' / d)) := by
      have := nearestEven_mono (Nat.mul_pos hd hp') h3
      rwa [nearestEven_mul_right (Nat.mul_pos hd hp')] at this
    have h5 : 2 * ulp (n / d) ≤ ulp (n' / d) := by
      unfold ulp at hlt ⊢
      have := (Nat.pow_lt_pow_iff_right (by decide : 1 < 2)).1 hlt
      calc 2 * 2 ^ ((n / d).log2 - 52) = 2 ^ ((n / d).log2 - 52 + 1) := by rw [Nat.pow_succ]; ring
        _ ≤ _ := Nat.pow_le_pow_right (by decide) this
    calc nearestEven n (d * ulp (n / d)) * ulp (n / d) ≤ 2 ^ 53 * ulp (n / d) := Nat.mul_le_mul_right _ h2
      _ = 2 ^ 52 * (2 * ulp (n / d)) := by ring
      _ ≤ 2 ^ 52 * ulp (n' / d) := Nat.mul_le_mul_left _ h5
      _ ≤ _ := Nat.mul_le_mul_right _ h4

/-- A magnitude that is a whole number of its last places is its own rounding. -/
theorem rneMag_exact {d q : Nat} (hd : 0 < d) (h : ulp q ∣ q) : rneMag (q * d) d = q := by
  obtain ⟨m, hm⟩ := h
  unfold rneMag
  rw [Nat.mul_div_cancel _ hd]
  have : q * d = m * (d * ulp q) := by conv_lhs => rw [hm]
                                       ring
  rw [this, nearestEven_mul_right (Nat.mul_pos hd (ulp_pos q)), Nat.mul_comm, ← hm]

/-! ### Signed values -/

theorem unitsPerOne_pos : 0 < unitsPerOne := by decide +kernel

@[simp] theorem F64.toInt_mk (neg : Bool) (mag : Nat) :
    (F64.mk neg mag).toInt = if neg then -(mag : Int) else (mag : Int) := rfl

@[simp] theorem F64.toInt_ofNat (n : Nat) : (F64.ofNat n).toInt = (n * unitsPerOne : Nat) := rfl

theorem f64_posOne : (f64 posOne).toInt = unitsPerOne := by decide +kernel

theorem f64_negOne : (f64 negOne).toInt = -(unitsPerOne : Int) := by decide +kernel

/-- A clamped value lies between −1 and 1. -/
theorem clamp_bounds (w : Word64) :
    -(unitsPerOne : Int) ≤ (f64 (clamp w)).toInt ∧ (f64 (clamp w)).toInt ≤ unitsPerOne := by
  have hp := unitsPerOne_pos
  unfold clamp F64.lt
  split
  · rw [f64_negOne]
    omega
  · split
    · rw [f64_posOne]
      omega
    · rw [f64_negOne, f64_posOne] at *
      omega

/-- Clamping keeps order. -/
theorem clamp_mono {w w' : Word64} (h : (f64 w).toInt ≤ (f64 w').toInt) :
    (f64 (clamp w)).toInt ≤ (f64 (clamp w')).toInt := by
  have hp := unitsPerOne_pos
  have h1 := f64_negOne
  have h2 := f64_posOne
  unfold clamp F64.lt
  split_ifs <;> omega

/-- The product with a non-negative whole number: the sign is the operand's, the magnitude the rounded product. -/
theorem fmul_ofNat_toInt (k : Nat) (a : F64) :
    (fmul (F64.ofNat k) a).toInt =
      if a.neg then -(rneMag (k * unitsPerOne * a.mag) unitsPerOne : Int)
      else (rneMag (k * unitsPerOne * a.mag) unitsPerOne : Int) := by
  simp [fmul, F64.ofNat]

/-- Multiplying by a non-negative whole number keeps order. -/
theorem fmul_ofNat_mono (k : Nat) {a b : F64} (h : a.toInt ≤ b.toInt) :
    (fmul (F64.ofNat k) a).toInt ≤ (fmul (F64.ofNat k) b).toInt := by
  have mono (m n : Nat) (hmn : m ≤ n) :
      rneMag (k * unitsPerOne * m) unitsPerOne ≤ rneMag (k * unitsPerOne * n) unitsPerOne :=
    rneMag_mono unitsPerOne_pos (Nat.mul_le_mul_left _ hmn)
  have zero : rneMag (k * unitsPerOne * 0) unitsPerOne = 0 := by
    have := rneMag_exact (d := unitsPerOne) (q := 0) unitsPerOne_pos (dvd_zero _)
    simpa using this
  rw [fmul_ofNat_toInt, fmul_ofNat_toInt]
  unfold F64.toInt at h
  cases ha : a.neg <;> cases hb : b.neg <;> simp only [ha, hb, if_true, if_false, Bool.false_eq_true] at h ⊢
  · have := mono a.mag b.mag (by omega)
    omega
  · have e1 : a.mag = 0 := by omega
    have e2 : b.mag = 0 := by omega
    rw [e1, e2, zero]
    omega
  · omega
  · have := mono b.mag a.mag (by omega)
    omega

/-- A sum that is not negative rounds to a value that is not negative. -/
theorem fadd_toInt_of_nonneg {a b : F64} (h : 0 ≤ a.toInt + b.toInt) :
    (fadd a b).toInt = rneMag (a.toInt + b.toInt).natAbs 1 := by
  unfold fadd
  dsimp only
  rw [F64.toInt_mk]
  by_cases h0 : a.toInt + b.toInt = 0
  · have : rneMag 0 1 = 0 := by decide
    simp [h0, this]
  · have : ¬ a.toInt + b.toInt < 0 := by omega
    simp [h0, this]

end Sys2Proof.Machine
end

