-- ==== Sys2Proof/Laws/Decode.lean ====
section
/-! SUPPORT. Decoding: which bits select each mnemonic, when a request decodes, and that the encoder's fields read back. -/

namespace Sys2Proof

open Machine

theorem BitVec_eq_iff_bits {n : Nat} (a b : BitVec n) : a = b ↔ ∀ i, i < n → a.getLsbD i = b.getLsbD i :=
  ⟨fun h _ _ => by rw [h], fun h => BitVec.eq_of_getLsbD_eq h⟩

/-! ### The fields each mask fixes -/

theorem selects_setax_iff (w : Word32) :
    ReqOp.setax.selects w = true ↔ w.extractLsb' 28 4 = 1#4 ∧ w.extractLsb' 3 25 = 0#25 := by
  simp only [ReqOp.selects, ReqOp.mask, ReqOp.pattern, beq_iff_eq, BitVec_eq_iff_bits, Nat.forall_lt_succ_right,
    BitVec.getLsbD_extractLsb', BitVec.getLsbD_and, BitVec.getLsbD_ofNat]
  simp [Nat.testBit]
  constructor <;> (intro h; simp only [h, and_self])

theorem selects_rdax_iff (w : Word32) :
    ReqOp.rdax.selects w = true ↔ w.extractLsb' 28 4 = 2#4 ∧ w.extractLsb' 3 25 = 0#25 := by
  simp only [ReqOp.selects, ReqOp.mask, ReqOp.pattern, beq_iff_eq, BitVec_eq_iff_bits, Nat.forall_lt_succ_right,
    BitVec.getLsbD_extractLsb', BitVec.getLsbD_and, BitVec.getLsbD_ofNat]
  simp [Nat.testBit]
  constructor <;> (intro h; simp only [h, and_self])

theorem selects_bldrc_iff (w : Word32) :
    ReqOp.bldrc.selects w = true ↔ w.extractLsb' 28 4 = 3#4 ∧ w.extractLsb' 0 28 = 0#28 := by
  simp only [ReqOp.selects, ReqOp.mask, ReqOp.pattern, beq_iff_eq, BitVec_eq_iff_bits, Nat.forall_lt_succ_right,
    BitVec.getLsbD_extractLsb', BitVec.getLsbD_and, BitVec.getLsbD_ofNat]
  simp [Nat.testBit]
  constructor <;> (intro h; simp only [h, and_self])

theorem selects_bldcmd_iff (w : Word32) :
    ReqOp.bldcmd.selects w = true ↔ w.extractLsb' 28 4 = 4#4 ∧ w.extractLsb' 24 4 = 0#4 := by
  simp only [ReqOp.selects, ReqOp.mask, ReqOp.pattern, beq_iff_eq, BitVec_eq_iff_bits, Nat.forall_lt_succ_right,
    BitVec.getLsbD_extractLsb', BitVec.getLsbD_and, BitVec.getLsbD_ofNat]
  simp [Nat.testBit]
  constructor <;> (intro h; simp only [h, and_self])

theorem selects_bldsmp_iff (w : Word32) :
    ReqOp.bldsmp.selects w = true ↔
      w.extractLsb' 28 4 = 5#4 ∧ w.extractLsb' 24 4 = 0#4 ∧ w.extractLsb' 0 16 = 0#16 := by
  simp only [ReqOp.selects, ReqOp.mask, ReqOp.pattern, beq_iff_eq, BitVec_eq_iff_bits, Nat.forall_lt_succ_right,
    BitVec.getLsbD_extractLsb', BitVec.getLsbD_and, BitVec.getLsbD_ofNat]
  simp [Nat.testBit]
  constructor <;> (intro h; simp only [h, and_self])

theorem selects_cksum_iff (w : Word32) :
    ReqOp.cksum.selects w = true ↔ w.extractLsb' 28 4 = 6#4 ∧ w.extractLsb' 16 12 = 0#12 := by
  simp only [ReqOp.selects, ReqOp.mask, ReqOp.pattern, beq_iff_eq, BitVec_eq_iff_bits, Nat.forall_lt_succ_right,
    BitVec.getLsbD_extractLsb', BitVec.getLsbD_and, BitVec.getLsbD_ofNat]
  simp [Nat.testBit]
  constructor <;> (intro h; simp only [h, and_self])

/-! ### Selecting and decoding -/

/-- The value of `OP` that a mnemonic has. -/
theorem op_of_selects {o : ReqOp} {w : Word32} (h : o.selects w = true) :
    w.extractLsb' 28 4 = o.pattern.extractLsb' 28 4 := by
  cases o
  case setax => exact ((selects_setax_iff w).1 h).1.trans rfl
  case rdax => exact ((selects_rdax_iff w).1 h).1.trans rfl
  case bldrc => exact ((selects_bldrc_iff w).1 h).1.trans rfl
  case bldcmd => exact ((selects_bldcmd_iff w).1 h).1.trans rfl
  case bldsmp => exact ((selects_bldsmp_iff w).1 h).1.trans rfl
  case cksum => exact ((selects_cksum_iff w).1 h).1.trans rfl

/-- No two mnemonics have the same `OP`. -/
theorem eq_of_op_eq {o o' : ReqOp} (h : o.pattern.extractLsb' 28 4 = o'.pattern.extractLsb' 28 4) : o = o' := by
  cases o <;> cases o' <;> first | rfl | exact absurd h (by decide)

theorem mem_requestOps (o : ReqOp) : o ∈ requestOps := by cases o <;> decide

theorem selects_of_selectOp {w : Word32} {o : ReqOp} (h : selectOp w = some o) : o.selects w = true := by
  rw [selectOp] at h
  have h' := List.find?_some h
  exact h'

theorem selectOp_eq_some_iff {w : Word32} {o : ReqOp} : selectOp w = some o ↔ o.selects w = true := by
  refine ⟨selects_of_selectOp, fun h => ?_⟩
  match hs : selectOp w with
  | none =>
    rw [selectOp] at hs
    exact absurd h (List.find?_eq_none.1 hs o (mem_requestOps o))
  | some o' => rw [eq_of_op_eq ((op_of_selects (selects_of_selectOp hs)).symm.trans (op_of_selects h))]

theorem selectOp_eq_none_iff {w : Word32} : selectOp w = none ↔ ∀ o : ReqOp, o.selects w = false := by
  rw [selectOp, List.find?_eq_none]
  exact ⟨fun h o => by simpa using h o (mem_requestOps o), fun h o _ => by simp [h o]⟩

/-- A request decodes to `i` exactly when a mnemonic selects it, `IN` has the length asked for, and `i` is that mnemonic
with the request's operands. -/
theorem decodeRequest_eq_ok_iff {q : Request} {i : Instr} :
    decodeRequest q = .ok i ↔ ∃ o : ReqOp, o.selects q.req = true ∧ q.inp.length = o.inLength q.req ∧ i = o.instr q := by
  unfold decodeRequest
  constructor
  · intro h
    split at h
    · cases h
    · rename_i o hs
      split at h
      · rename_i hl
        cases h
        exact ⟨o, selectOp_eq_some_iff.1 hs, hl, rfl⟩
      · cases h
  · rintro ⟨o, hs, hl, rfl⟩
    simp [selectOp_eq_some_iff.2 hs, hl]

theorem decode_request (q : Request) : decode (.request q) = decodeRequest q := rfl

/-- What a request that does not decode is rejected as is never a matter of wire frames. -/
theorem decodeRequest_error_ne {q : Request} {r : Reject} (h : decodeRequest q = .error r) : r ≠ .notNamedCommand := by
  unfold decodeRequest at h
  split at h
  · split at h <;> (cases h; decide)
  · split at h
    · cases h
    · cases h
      decide

/-- When a mnemonic selects a request of the right length, by the fields of `REQ`. -/
theorem selected_iff_fields (q : Request) :
    (∃ o : ReqOp, o.selects q.req = true ∧ q.inp.length = o.inLength q.req) ↔
      (((q.req.extractLsb' 28 4).toNat = 1 ∧ q.req.extractLsb' 3 25 = 0) ∧ q.inp.length = 0) ∨
      (((q.req.extractLsb' 28 4).toNat = 2 ∧ q.req.extractLsb' 3 25 = 0) ∧ q.inp.length = 0) ∨
      (((q.req.extractLsb' 28 4).toNat = 3 ∧ q.req.extractLsb' 0 28 = 0) ∧ q.inp.length = 0) ∨
      (((q.req.extractLsb' 28 4).toNat = 4 ∧ q.req.extractLsb' 24 4 = 0) ∧
        q.inp.length = (q.req.extractLsb' 0 16).toNat) ∨
      (((q.req.extractLsb' 28 4).toNat = 5 ∧ q.req.extractLsb' 24 4 = 0 ∧ q.req.extractLsb' 0 16 = 0) ∧
        q.inp.length = 0) ∨
      (((q.req.extractLsb' 28 4).toNat = 6 ∧ q.req.extractLsb' 16 12 = 0) ∧
        q.inp.length = (q.req.extractLsb' 0 16).toNat) := by
  have hop (k : BitVec 4) : q.req.extractLsb' 28 4 = k ↔ (q.req.extractLsb' 28 4).toNat = k.toNat :=
    BitVec.toNat_inj.symm
  constructor
  · rintro ⟨o, hs, hl⟩
    cases o
    case setax => rw [selects_setax_iff, hop] at hs; exact .inl ⟨hs, hl⟩
    case rdax => rw [selects_rdax_iff, hop] at hs; exact .inr (.inl ⟨hs, hl⟩)
    case bldrc => rw [selects_bldrc_iff, hop] at hs; exact .inr (.inr (.inl ⟨hs, hl⟩))
    case bldcmd => rw [selects_bldcmd_iff, hop] at hs; exact .inr (.inr (.inr (.inl ⟨hs, hl⟩)))
    case bldsmp => rw [selects_bldsmp_iff, hop] at hs; exact .inr (.inr (.inr (.inr (.inl ⟨hs, hl⟩))))
    case cksum => rw [selects_cksum_iff, hop] at hs; exact .inr (.inr (.inr (.inr (.inr ⟨hs, hl⟩))))
  · rintro (⟨h, hl⟩ | ⟨h, hl⟩ | ⟨h, hl⟩ | ⟨h, hl⟩ | ⟨h, hl⟩ | ⟨h, hl⟩)
    · exact ⟨.setax, by rw [selects_setax_iff, hop]; exact h, hl⟩
    · exact ⟨.rdax, by rw [selects_rdax_iff, hop]; exact h, hl⟩
    · exact ⟨.bldrc, by rw [selects_bldrc_iff, hop]; exact h, hl⟩
    · exact ⟨.bldcmd, by rw [selects_bldcmd_iff, hop]; exact h, hl⟩
    · exact ⟨.bldsmp, by rw [selects_bldsmp_iff, hop]; exact h, hl⟩
    · exact ⟨.cksum, by rw [selects_cksum_iff, hop]; exact h, hl⟩

/-- The decoder's table and the spec's words about illegal requests agree. -/
theorem not_illegal_iff_selected (q : Request) :
    ¬ IllegalRequest q ↔ ∃ o : ReqOp, o.selects q.req = true ∧ q.inp.length = o.inLength q.req := by
  rw [selected_iff_fields, IllegalRequest]
  simp only [← List.length_eq_zero_iff, ne_eq]
  generalize (q.req.extractLsb' 28 4).toNat = op
  generalize (q.req.extractLsb' 0 16).toNat = len
  generalize q.inp.length = n
  rcases (by omega : op = 0 ∨ 7 ≤ op ∨ op = 1 ∨ op = 2 ∨ op = 3 ∨ op = 4 ∨ op = 5 ∨ op = 6) with
    h | h | h | h | h | h | h | h
  · simp [h]
  · have h1 : op ≠ 1 := by omega
    have h2 : op ≠ 2 := by omega
    have h3 : op ≠ 3 := by omega
    have h4 : op ≠ 4 := by omega
    have h5 : op ≠ 5 := by omega
    have h6 : op ≠ 6 := by omega
    simp [h, h1, h2, h3, h4, h5, h6]
  all_goals
    subst h
    simp
    try tauto

/-- A request decodes exactly when it is not illegal. -/
theorem decodes_iff_not_illegal (q : Request) : (∃ i, decode (.request q) = .ok i) ↔ ¬ IllegalRequest q := by
  rw [not_illegal_iff_selected]
  constructor
  · rintro ⟨i, h⟩
    obtain ⟨o, hs, hl, -⟩ := decodeRequest_eq_ok_iff.1 h
    exact ⟨o, hs, hl⟩
  · rintro ⟨o, hs, hl⟩
    exact ⟨_, decodeRequest_eq_ok_iff.2 ⟨o, hs, hl, rfl⟩⟩

/-- An illegal request is rejected, and not as a wire frame. -/
theorem rejected_of_illegal {q : Request} (h : IllegalRequest q) :
    ∃ r, decode (.request q) = .error r ∧ r ≠ .notNamedCommand := by
  match hd : decode (.request q) with
  | .ok i => exact absurd h ((decodes_iff_not_illegal q).1 ⟨i, hd⟩)
  | .error r => exact ⟨r, rfl, decodeRequest_error_ne hd⟩

/-! ### The encoder's fields -/

theorem axisOf_axisNumber (a : Axis) : axisOf (axisNumber a) = a := by cases a <;> rfl

theorem axisNumber_axisOf (b : BitVec 3) : axisNumber (axisOf b) = b := by revert b; decide

theorem setax_word (a : Axis) :
    ReqOp.setax.selects (ReqOp.setax.pattern ||| axisBits a) = true ∧
      axisField (ReqOp.setax.pattern ||| axisBits a) = axisNumber a := by
  cases a <;> decide

theorem rdax_word (a : Axis) :
    ReqOp.rdax.selects (ReqOp.rdax.pattern ||| axisBits a) = true ∧
      axisField (ReqOp.rdax.pattern ||| axisBits a) = axisNumber a := by
  cases a <;> decide

theorem bldcmd_word (id : Byte) (n : Nat) :
    ReqOp.bldcmd.selects (ReqOp.bldcmd.pattern ||| (idBits id ||| lenBits n)) = true ∧
      idField (ReqOp.bldcmd.pattern ||| (idBits id ||| lenBits n)) = id ∧
      lenField (ReqOp.bldcmd.pattern ||| (idBits id ||| lenBits n)) = BitVec.ofNat 16 n := by
  refine ⟨(selects_bldcmd_iff _).2 ⟨?_, ?_⟩, ?_, ?_⟩ <;> ext i hi <;>
    simp [idField, lenField, ReqOp.pattern, idBits, lenBits] <;> interval_cases i <;> simp

theorem bldsmp_word (id : Byte) :
    ReqOp.bldsmp.selects (ReqOp.bldsmp.pattern ||| idBits id) = true ∧
      idField (ReqOp.bldsmp.pattern ||| idBits id) = id := by
  revert id
  decide +kernel

theorem cksum_word (n : Nat) :
    ReqOp.cksum.selects (ReqOp.cksum.pattern ||| lenBits n) = true ∧
      lenField (ReqOp.cksum.pattern ||| lenBits n) = BitVec.ofNat 16 n := by
  refine ⟨(selects_cksum_iff _).2 ⟨?_, ?_⟩, ?_⟩ <;> ext i hi <;>
    simp [lenField, ReqOp.pattern, lenBits] <;> interval_cases i <;> simp

/-! ### A selected word is its pattern joined to its operand bits -/

theorem pattern_or_operands {o : ReqOp} {w : Word32} (hs : o.selects w = true) {bits : Word32}
    (h : bits = w &&& ~~~ o.mask) : o.pattern ||| bits = w := by
  simp only [ReqOp.selects, beq_iff_eq] at hs
  subst h
  rw [← hs]
  ext i hi
  simp only [BitVec.getElem_or, BitVec.getElem_and, BitVec.getElem_not]
  cases w[i] <;> cases o.mask[i] <;> rfl

theorem axisBits_eq (w : Word32) : axisBits (axisOf (axisField w)) = w &&& ~~~ 0xFFFFFFF8#32 := by
  rw [axisBits, axisNumber_axisOf]
  ext i hi
  simp [axisField]
  interval_cases i <;> simp

theorem idBits_eq (w : Word32) : idBits (idField w) = w &&& ~~~ 0xFF00FFFF#32 := by
  ext i hi
  simp [idBits, idField]
  interval_cases i <;> simp

theorem lenBits_eq (w : Word32) : lenBits (lenField w).toNat = w &&& ~~~ 0xFFFF0000#32 := by
  simp only [lenBits, BitVec.ofNat_toNat, BitVec.setWidth_eq]
  ext i hi
  simp [lenField]
  interval_cases i <;> simp

theorem idBits_or_lenBits_eq (w : Word32) :
    idBits (idField w) ||| lenBits (lenField w).toNat = w &&& ~~~ 0xFF000000#32 := by
  simp only [lenBits, BitVec.ofNat_toNat, BitVec.setWidth_eq]
  ext i hi
  simp [idBits, idField, lenField]
  interval_cases i <;> simp

end Sys2Proof
end

