-- ==== Sys2Proof/Laws/Frame.lean ====
section
/-! SUPPORT. The framer's functions: the fold, and the parts of a frame. -/

namespace Sys2Proof.Machine

open Sys2Proof

@[simp] theorem xorfold_nil : xorfold [] = 0 := rfl

@[simp] theorem xorfold_cons (b : Byte) (s : List Byte) : xorfold (b :: s) = b ^^^ xorfold s := rfl

theorem xorfold_append (s t : List Byte) : xorfold (s ++ t) = xorfold s ^^^ xorfold t := by
  induction s with
  | nil => simp
  | cons b s ih => simp [ih, BitVec.xor_assoc]

@[simp] theorem frameBody_length (id : Byte) (p : List Byte) : (frameBody id p).length = 2 + p.length := by
  simp [frameBody]
  omega

@[simp] theorem frame_length (c : Config) (id : Byte) (p : List Byte) : (frame c id p).length = 6 + p.length := by
  simp [frame]
  omega

/-- The body and the checksum of a frame follow its three header bytes. -/
theorem drop_header_frame (c : Config) (id : Byte) (p : List Byte) :
    (frame c id p).drop 3 = frameBody id p ++ [xorfold (frameBody id p)] := rfl

/-- What `CKSUM` folds of a whole frame is the frame's body. -/
theorem checksummedPart_frame (c : Config) (id : Byte) (p : List Byte) :
    checksummedPart (frame c id p) = frameBody id p := by
  rw [checksummedPart, drop_header_frame, List.dropLast_concat]

theorem frame_nil (c : Config) (id : Byte) : frame c id [] = [c.hdr0, c.hdr1, c.hdr2, 0, id, id] := by
  simp [frame, frameBody]

end Sys2Proof.Machine
end

