-- ==== Sys2Proof/Laws/State.lean ====
section
/-! SUPPORT. The small lemmas of the state: one per field per update, and reading after writing a channel. -/

namespace Sys2Proof.Machine

open Sys2Proof

/-! ### Channels -/

@[simp] theorem Channels.read_write_same (ch : Channels) (a : Axis) (w : Word64) : (ch.write a w).read a = w := by
  cases a <;> rfl

theorem Channels.read_write_of_ne (ch : Channels) {a b : Axis} (w : Word64) (h : b ≠ a) :
    (ch.write a w).read b = ch.read b := by
  cases a <;> cases b <;> first | rfl | exact absurd rfl h

theorem Channels.read_write (ch : Channels) (a b : Axis) (w : Word64) :
    (ch.write a w).read b = if b = a then w else ch.read b := by
  by_cases h : b = a
  · subst h; simp
  · simp [h, Channels.read_write_of_ne ch w h]

@[simp] theorem Channels.write_write (ch : Channels) (a : Axis) (v w : Word64) :
    (ch.write a v).write a w = ch.write a w := by
  cases a <;> rfl

@[simp] theorem Channels.read_centred (a : Axis) : Channels.centred.read a = 0 := by
  cases a <;> rfl

theorem Channels.ext_read {ch ch' : Channels} (h : ∀ a, ch.read a = ch'.read a) : ch = ch' := by
  cases ch
  cases ch'
  simp only [Channels.mk.injEq]
  exact ⟨h .roll, h .pitch, h .yaw, h .throttle, h .aux1, h .aux2, h .aux3, h .aux4⟩

theorem mem_axes (a : Axis) : a ∈ axes := by cases a <;> decide

theorem Channels.inRange_iff (ch : Channels) : ch.inRange ↔ ∀ a, InRange (ch.read a) :=
  ⟨fun h a => h a (mem_axes a), fun h a _ => h a⟩

theorem Channels.inRange_write {ch : Channels} (h : ch.inRange) (a : Axis) {w : Word64} (hw : InRange w) :
    (ch.write a w).inRange := by
  intro b hb
  rw [Channels.read_write]
  split
  · exact hw
  · exact h b hb

/-! ### Updates of the state, field by field -/

@[simp] theorem State.writeChannel_ch (s : State) (a : Axis) (w : Word64) :
    (s.writeChannel a w).ch = s.ch.write a w := rfl
@[simp] theorem State.writeChannel_inputs (s : State) (a : Axis) (w : Word64) :
    (s.writeChannel a w).inputs = s.inputs := rfl
@[simp] theorem State.writeChannel_response (s : State) (a : Axis) (w : Word64) :
    (s.writeChannel a w).response = s.response := rfl

@[simp] theorem performReset_ch (s : State) : (performReset s).ch = Channels.centred := rfl
@[simp] theorem performReset_inputs (s : State) : (performReset s).inputs = s.inputs := rfl
@[simp] theorem performReset_response (s : State) : (performReset s).response = none := rfl

@[simp] theorem idle_ch (s : State) : (idle s).ch = s.ch := rfl
@[simp] theorem idle_inputs (s : State) : (idle s).inputs = s.inputs := rfl
@[simp] theorem idle_response (s : State) : (idle s).response = none := rfl

@[simp] theorem State.present_ch (s : State) (p : Presented) : (s.present p).ch = s.ch := rfl
@[simp] theorem State.present_inputs (s : State) (p : Presented) :
    (s.present p).inputs = .present p :: s.inputs := rfl
@[simp] theorem State.present_response (s : State) (p : Presented) : (s.present p).response = s.response := rfl

@[simp] theorem State.withFetchWord_eq_present (s : State) (nbits w : Nat) :
    s.withFetchWord nbits w = s.present (tablePresented nbits w) := rfl

@[simp] theorem State.reset_ch : State.reset.ch = Channels.centred := rfl
@[simp] theorem State.reset_inputs : State.reset.inputs = [] := rfl
@[simp] theorem State.reset_response : State.reset.response = none := rfl

end Sys2Proof.Machine
end

