-- ==== Sys2Proof/Laws/Ops.lean ====
section
/-! SUPPORT. What each shared operation, each request and the step can do, said once. -/

namespace Sys2Proof.Machine

open Sys2Proof

/-! ### The shared operations -/

theorem answer_eq (r : Response) (s : State) : answer r s = .next { s with response := some r } := rfl

theorem succeed_eq (out : List Byte) (res : Word64) (s : State) :
    succeed out res s = .next { s with response := some ⟨.ok, out, res⟩ } := rfl

theorem raise_eq (st : Status) (s : State) : raise st s = .next { s with response := some ⟨st, [], 0⟩ } := rfl

theorem emitFrame_eq (id : Byte) (p : List Byte) (s : State) :
    emitFrame id p s = .next { s with response := some ⟨.ok, frame config id p, 0⟩ } := rfl

theorem answer_next {r : Response} {s t : State} (h : answer r s = .next t) :
    t.ch = s.ch ∧ t.inputs = s.inputs ∧ t.response = some r := by
  cases h
  exact ⟨rfl, rfl, rfl⟩

/-- A rejection is the answer `ILLEGAL_REQUEST` or a refusal, by what was presented. -/
theorem rejectPresented_cases (r : Reject) (s : State) :
    (r ≠ .notNamedCommand ∧ rejectPresented r s = raise .illegalRequest s) ∨
      (r = .notNamedCommand ∧ rejectPresented r s = .refused .notNamedCommand) := by
  cases r <;> simp [rejectPresented]

/-! ### The checks, at the default parameters -/

theorem payloadTooLarge_iff (n : Nat) : payloadTooLarge config n = true ↔ 255 < n := by
  simp only [payloadTooLarge, decide_eq_true_eq]
  rfl

theorem checksumLengthBad_iff (n : Nat) : checksumLengthBad config n = true ↔ n < 6 ∨ 261 < n := by
  simp only [checksumLengthBad, Bool.or_eq_true, decide_eq_true_eq]
  rfl

/-! ### The instructions -/

/-- Everything an instruction can do: answer and change nothing else, or be a `SETAX` that stores a clamped value. -/
theorem exec_cases (i : Instr) (s : State) :
    (∃ r : Response, exec i s = .next { s with response := some r }) ∨
      ∃ a d, i = .setax a d ∧ isNaN d = false ∧
        exec i s = .next { s with ch := s.ch.write a (clamp d), response := some ⟨.ok, [], 0⟩ } := by
  cases i with
  | setax a d =>
    by_cases h : isNaN d = true
    · exact .inl ⟨⟨.nanInput, [], 0⟩, by simp [exec, execSetax, nanInput, h, raise_eq]⟩
    · rw [Bool.not_eq_true] at h
      exact .inr ⟨a, d, rfl, h, by simp [exec, execSetax, nanInput, h, succeed_eq, State.writeChannel]⟩
  | bldcmd id p =>
    by_cases h : payloadTooLarge config p.length = true
    · exact .inl ⟨⟨.payloadTooLarge, [], 0⟩, by simp [exec, execBldcmd, h, raise_eq]⟩
    · exact .inl ⟨⟨.ok, frame config id p, 0⟩, by simp [exec, execBldcmd, h, emitFrame_eq]⟩
  | cksum wire =>
    by_cases h : checksumLengthBad config wire.length = true
    · exact .inl ⟨⟨.checksumLength, [], 0⟩, by simp [exec, execCksum, h, raise_eq]⟩
    · exact .inl ⟨⟨.ok, [], (xorfold (checksummedPart wire)).setWidth 64⟩, by simp [exec, execCksum, h, succeed_eq]⟩
  | rdax => exact .inl ⟨_, rfl⟩
  | bldrc => exact .inl ⟨_, rfl⟩
  | bldsmp => exact .inl ⟨_, rfl⟩
  | setRawRcTiny => exact .inl ⟨_, rfl⟩
  | rcinit => exact .inl ⟨_, rfl⟩
  | arm => exact .inl ⟨_, rfl⟩
  | disarm => exact .inl ⟨_, rfl⟩
  | trimUp => exact .inl ⟨_, rfl⟩
  | trimDown => exact .inl ⟨_, rfl⟩
  | trimLeft => exact .inl ⟨_, rfl⟩
  | trimRight => exact .inl ⟨_, rfl⟩

/-- Every instruction answers a next state, takes no event, and gives exactly one response. -/
theorem exec_answers (i : Instr) (s : State) :
    ∃ t r, exec i s = .next t ∧ t.inputs = s.inputs ∧ t.response = some r := by
  rcases exec_cases i s with ⟨r, h⟩ | ⟨a, d, -, -, h⟩
  · exact ⟨_, r, h, rfl, rfl⟩
  · exact ⟨_, _, h, rfl, rfl⟩

/-! ### The step -/

theorem step_idle {s : State} (h : s.inputs = []) : step s = .next (idle s) := by simp [step, h]

theorem step_reset {s : State} {rest : List HostEvent} (h : s.inputs = .reset :: rest) :
    step s = .next (performReset { s with inputs := rest }) := by simp [step, h]

theorem step_presented {s : State} {p : Presented} {rest : List HostEvent} (h : s.inputs = .present p :: rest) :
    step s = perform p { s with inputs := rest } := by simp [step, h]

theorem step_present (s : State) (p : Presented) : step (s.present p) = perform p s :=
  step_presented (s := s.present p) (rest := s.inputs) rfl

theorem perform_of_ok {p : Presented} {i : Instr} (h : decode p = .ok i) (s : State) : perform p s = exec i s := by
  simp [perform, h]

theorem perform_of_error {p : Presented} {r : Reject} (h : decode p = .error r) (s : State) :
    perform p s = rejectPresented r s := by simp [perform, h]

/-- Everything a step that answers a next state can do, guards included. -/
theorem step_cases {s t : State} (h : step s = .next t) :
    (s.inputs = [] ∧ t = idle s) ∨
    (∃ rest, s.inputs = .reset :: rest ∧ t = performReset { s with inputs := rest }) ∨
    (∃ p rest r, s.inputs = .present p :: rest ∧ decode p = .error r ∧ r ≠ .notNamedCommand ∧
      t = { s with inputs := rest, response := some ⟨.illegalRequest, [], 0⟩ }) ∨
    (∃ p rest i, s.inputs = .present p :: rest ∧ decode p = .ok i ∧ exec i { s with inputs := rest } = .next t) := by
  match hin : s.inputs with
  | [] =>
    rw [step_idle hin] at h
    cases h
    exact .inl ⟨rfl, rfl⟩
  | .reset :: rest =>
    rw [step_reset hin] at h
    cases h
    exact .inr (.inl ⟨rest, rfl, rfl⟩)
  | .present p :: rest =>
    rw [step_presented hin] at h
    match hd : decode p with
    | .ok i =>
      rw [perform_of_ok hd] at h
      exact .inr (.inr (.inr ⟨p, rest, i, rfl, hd, h⟩))
    | .error r =>
      rw [perform_of_error hd] at h
      rcases rejectPresented_cases r { s with inputs := rest } with ⟨hr, e⟩ | ⟨-, e⟩
      · rw [e, raise_eq] at h
        cases h
        exact .inr (.inr (.inl ⟨p, rest, r, rfl, hd, hr, rfl⟩))
      · rw [e] at h
        cases h

end Sys2Proof.Machine
end

