-- ==== Sys2Proof/Laws/Exec.lean ====
section
/-! SUPPORT. One lemma per meaning: what it answers, at the default parameters. -/

namespace Sys2Proof.Machine

open Sys2Proof

theorem execSetax_of_not_nan {d : Word64} (h : isNaN d = false) (a : Axis) (s : State) :
    execSetax a d s = .next { s with ch := s.ch.write a (clamp d), response := some ⟨.ok, [], 0⟩ } := by
  simp [execSetax, nanInput, h, succeed_eq, State.writeChannel]

theorem execSetax_of_nan {d : Word64} (h : isNaN d = true) (a : Axis) (s : State) :
    execSetax a d s = .next { s with response := some ⟨.nanInput, [], 0⟩ } := by
  simp [execSetax, nanInput, h, raise_eq]

theorem execRdax_eq (a : Axis) (s : State) :
    execRdax a s = .next { s with response := some ⟨.ok, [], s.ch.read a⟩ } := rfl

theorem execBldrc_eq (s : State) :
    execBldrc s = .next { s with
      response := some ⟨.ok, frame config config.idRcTiny (rcPayload config (rcFieldByte config s.ch)), 0⟩ } := rfl

theorem execBldcmd_of_le {p : List Byte} (h : p.length ≤ 255) (id : Byte) (s : State) :
    execBldcmd id p s = .next { s with response := some ⟨.ok, frame config id p, 0⟩ } := by
  have hn : ¬ 255 < p.length := by omega
  simp only [execBldcmd, payloadTooLarge_iff, hn, if_false, emitFrame_eq]

theorem execBldcmd_of_gt {p : List Byte} (h : 255 < p.length) (id : Byte) (s : State) :
    execBldcmd id p s = .next { s with response := some ⟨.payloadTooLarge, [], 0⟩ } := by
  simp only [execBldcmd, payloadTooLarge_iff, h, if_true, raise_eq]

theorem execBldsmp_eq (id : Byte) (s : State) :
    execBldsmp id s = .next { s with response := some ⟨.ok, frame config id [], 0⟩ } := rfl

theorem execCksum_of_length {wire : List Byte} (h : 6 ≤ wire.length) (h' : wire.length ≤ 261) (s : State) :
    execCksum wire s = .next { s with response := some ⟨.ok, [], (xorfold (checksummedPart wire)).setWidth 64⟩ } := by
  have hn : ¬ (wire.length < 6 ∨ 261 < wire.length) := by omega
  simp only [execCksum, checksumLengthBad_iff, hn, if_false, succeed_eq]

theorem execCksum_of_bad_length {wire : List Byte} (h : wire.length < 6 ∨ 261 < wire.length) (s : State) :
    execCksum wire s = .next { s with response := some ⟨.checksumLength, [], 0⟩ } := by
  simp only [execCksum, checksumLengthBad_iff, h, if_true, raise_eq]

/-- The payload of five given bytes, at the default `RC_ORDER`. -/
theorem rcPayload_config (byteOf : RcField → Byte) :
    rcPayload config byteOf = [byteOf .roll, byteOf .pitch, byteOf .yaw, byteOf .throttle, byteOf .aux] := rfl

end Sys2Proof.Machine
end

