-- ==== Sys2Proof/Laws/PerInstr.lean ====
section
/-! SUPPORT. What holds of every instruction as syntax: its encoding is admitted by its own row of
spec/opcode_table.json, whose fixed bits are written out here a second time, from the table. -/

namespace Sys2Proof.Laws.EncodesItsRow

open Sys2Proof

/-- The fixed bits of a row: "match" and "mask" of a request word, or the bytes of a wire frame, `none` where the
"encoding" string has operand letters. -/
inductive TableRow where
  | word (pattern mask : Word32)
  | wire (bytes : List (Option Byte))
deriving DecidableEq, Repr

/-- Is something presented an encoding the row admits? -/
def TableRow.admits : TableRow → Presented → Bool
  | .word pattern mask, .request q => q.req &&& mask == pattern
  | .wire fixed, .command bytes =>
    fixed.length == bytes.length && (fixed.zip bytes).all fun (f, b) => f.all (· == b)
  | .word _ _, .command _ => false
  | .wire _, .request _ => false

/-- The row of each instruction. -/
def rowOf : Instr → TableRow
  | .setax _ _ => .word 0x10000000 0xFFFFFFF8
  | .rdax _ => .word 0x20000000 0xFFFFFFF8
  | .bldrc => .word 0x30000000 0xFFFFFFFF
  | .bldcmd _ _ => .word 0x40000000 0xFF000000
  | .bldsmp _ => .word 0x50000000 0xFF00FFFF
  | .cksum _ => .word 0x60000000 0xFFFF0000
  | .setRawRcTiny _ _ _ _ _ =>
    .wire [some 0x24, some 0x4D, some 0x3C, some 0x05, some 0x96, none, none, none, none, none, none]
  | .rcinit => .wire [some 0x24, some 0x4D, some 0x3C, some 0x00, some 0x96, some 0x96]
  | .arm => .wire [some 0x24, some 0x4D, some 0x3C, some 0x00, some 0x97, some 0x97]
  | .disarm => .wire [some 0x24, some 0x4D, some 0x3C, some 0x00, some 0x98, some 0x98]
  | .trimUp => .wire [some 0x24, some 0x4D, some 0x3C, some 0x00, some 0x99, some 0x99]
  | .trimDown => .wire [some 0x24, some 0x4D, some 0x3C, some 0x00, some 0x9A, some 0x9A]
  | .trimLeft => .wire [some 0x24, some 0x4D, some 0x3C, some 0x00, some 0x9B, some 0x9B]
  | .trimRight => .wire [some 0x24, some 0x4D, some 0x3C, some 0x00, some 0x9C, some 0x9C]

/-- The encoding of the instruction is admitted by its row. -/
def Statement (i : Instr) : Prop := (rowOf i).admits (encode i) = true

theorem setax (a : Axis) (d : Word64) : Statement (.setax a d) := (setax_word a).1
theorem rdax (a : Axis) : Statement (.rdax a) := (rdax_word a).1
theorem bldrc : Statement .bldrc := rfl
theorem bldcmd (id : Byte) (payload : List Byte) : Statement (.bldcmd id payload) := (bldcmd_word id payload.length).1
theorem bldsmp (id : Byte) : Statement (.bldsmp id) := (bldsmp_word id).1
theorem cksum (wire : List Byte) : Statement (.cksum wire) := (cksum_word wire.length).1
theorem setRawRcTiny (r p y t x : Byte) : Statement (.setRawRcTiny r p y t x) := rfl
theorem rcinit : Statement .rcinit := rfl
theorem arm : Statement .arm := rfl
theorem disarm : Statement .disarm := rfl
theorem trimUp : Statement .trimUp := rfl
theorem trimDown : Statement .trimDown := rfl
theorem trimLeft : Statement .trimLeft := rfl
theorem trimRight : Statement .trimRight := rfl

end Sys2Proof.Laws.EncodesItsRow
end

