-- ==== Sys2Proof/Laws/Rounding.lean ====
section
/-! SUPPORT. `rneMag` is rounding to nearest even among the binary64 magnitudes, and `toPattern` writes its result as a
pattern: together, `IsRne` of the rounded pattern. -/

namespace Sys2Proof.Machine

open Sys2Proof

/-! ### Binary64 magnitudes: whole numbers of their own last places -/

theorem ulp_eq_one {q : Nat} (h : q < 2 ^ 53) : ulp q = 1 := by
  rcases Nat.eq_zero_or_pos q with rfl | hq
  · rfl
  · have : q.log2 < 53 := (Nat.log2_lt (by omega)).2 h
    have h' : q.log2 - 52 = 0 := by omega
    rw [ulp, h', Nat.pow_zero]

theorem ulp_normal {m : Nat} (h : 2 ^ 52 ≤ m) (h' : m < 2 ^ 53) (k : Nat) : ulp (m * 2 ^ k) = 2 ^ k := by
  have hne : m * 2 ^ k ≠ 0 := Nat.mul_ne_zero (by omega) (Nat.two_pow_pos k).ne'
  have hl : (m * 2 ^ k).log2 = 52 + k := by
    rw [Nat.log2_eq_iff hne, Nat.pow_add, show 52 + k + 1 = 53 + k from by omega, Nat.pow_add]
    exact ⟨Nat.mul_le_mul_right _ h, Nat.mul_lt_mul_of_pos_right h' (Nat.two_pow_pos k)⟩
  rw [ulp, hl, Nat.add_sub_cancel_left]

theorem ulp_dvd_ulp {q q' : Nat} (h : ulp q ≤ ulp q') : ulp q ∣ ulp q' := by
  unfold ulp at *
  exact Nat.pow_dvd_pow 2 ((Nat.pow_le_pow_iff_right (by decide)).1 h)

theorem fracField_lt (w : Word64) : fracField w < 2 ^ 52 := (w.extractLsb' 0 52).isLt

/-- Every pattern has a binary64 magnitude. -/
theorem ulp_dvd_f64 (w : Word64) : ulp (f64 w).mag ∣ (f64 w).mag := by
  have hf := fracField_lt w
  simp only [f64]
  split
  · rw [ulp_eq_one (by omega)]
    exact one_dvd _
  · rw [ulp_normal (by omega) (by omega)]
    exact dvd_mul_left _ _

/-- The significand of a rounding. -/
theorem nearestEven_le {d : Nat} (hd : 0 < d) (n : Nat) : nearestEven n (d * ulp (n / d)) ≤ 2 ^ 53 := by
  have hp := ulp_pos (n / d)
  have h1 : n ≤ 2 ^ 53 * (d * ulp (n / d)) := by
    have := lt_two_pow_mul_ulp (n / d)
    have h2 : n < d * (n / d + 1) := Nat.lt_mul_div_succ n hd
    have h3 : d * (n / d + 1) ≤ d * (2 ^ 53 * ulp (n / d)) := Nat.mul_le_mul_left d this
    calc n ≤ d * (2 ^ 53 * ulp (n / d)) := by omega
      _ = _ := by ring
  have := nearestEven_mono (Nat.mul_pos hd hp) h1
  rwa [nearestEven_mul_right (Nat.mul_pos hd hp)] at this

/-- Every rounding is a binary64 magnitude. -/
theorem rneMag_ulp_dvd {d : Nat} (hd : 0 < d) (n : Nat) : ulp (rneMag n d) ∣ rneMag n d := by
  have hp := ulp_pos (n / d)
  have hle := nearestEven_le hd n
  unfold rneMag
  generalize nearestEven n (d * ulp (n / d)) = m at *
  unfold ulp at hp ⊢
  generalize (n / d).log2 - 52 = k at *
  change ulp (m * 2 ^ k) ∣ m * 2 ^ k
  by_cases h53 : m = 2 ^ 53
  · have : m * 2 ^ k = 2 ^ 52 * 2 ^ (k + 1) := by rw [h53]; ring
    rw [this, ulp_normal (by omega) (by omega)]
    exact dvd_mul_left _ _
  · have hle2 : ulp (m * 2 ^ k) ≤ 2 ^ k := by
      by_cases h52 : 2 ^ 52 ≤ m
      · rw [ulp_normal h52 (by omega)]
      · have := ulp_mono (q := m * 2 ^ k) (q' := 2 ^ 52 * 2 ^ k) (Nat.mul_le_mul_right _ (by omega))
        rwa [ulp_normal (m := 2 ^ 52) (by omega) (by omega)] at this
    have : ulp (m * 2 ^ k) ∣ 2 ^ k := by
      unfold ulp at *
      exact Nat.pow_dvd_pow 2 ((Nat.pow_le_pow_iff_right (by decide)).1 hle2)
    exact this.trans (dvd_mul_left _ _)

/-- No multiple of the divisor is nearer than the rounded one, and at a tie the rounded one is even. -/
theorem nearestEven_nearest {D : Nat} (hD : 0 < D) (n k : Nat) :
    (((nearestEven n D * D : Nat) : Int) - n).natAbs ≤ (((k * D : Nat) : Int) - n).natAbs ∧
      ((((k * D : Nat) : Int) - n).natAbs = (((nearestEven n D * D : Nat) : Int) - n).natAbs →
        k ≠ nearestEven n D → nearestEven n D % 2 = 0) := by
  obtain ⟨h1, h2⟩ := nearestEven_near hD n
  have ht := nearestEven_even_of_tie hD (n := n)
  generalize nearestEven n D = N at *
  rcases Nat.lt_trichotomy k N with hk | hk | hk
  · have hmul : (k + 1) * D ≤ N * D := Nat.mul_le_mul_right D hk
    rw [Nat.succ_mul] at hmul
    generalize k * D = B at *
    generalize N * D = A at *
    exact ⟨by omega, fun _ _ => ht (by omega)⟩
  · subst hk
    exact ⟨le_refl _, fun _ h => absurd rfl h⟩
  · have hmul : (N + 1) * D ≤ k * D := Nat.mul_le_mul_right D hk
    rw [Nat.succ_mul] at hmul
    generalize k * D = B at *
    generalize N * D = A at *
    exact ⟨by omega, fun _ _ => ht (by omega)⟩

/-- No binary64 magnitude is nearer to `n/d` than the rounded one, and at a tie the rounding is even. -/
theorem rneMag_nearest {d : Nat} (hd : 0 < d) (n : Nat) {m : Nat} (hm : ulp m ∣ m) :
    ((rneMag n d * d : Int) - n).natAbs ≤ ((m * d : Int) - n).natAbs ∧
      (((m * d : Int) - n).natAbs = ((rneMag n d * d : Int) - n).natAbs → m ≠ rneMag n d →
        nearestEven n (d * ulp (n / d)) % 2 = 0) := by
  have hu := ulp_pos (n / d)
  have hD : 0 < d * ulp (n / d) := Nat.mul_pos hd hu
  have hR : (rneMag n d * d : Int) = (nearestEven n (d * ulp (n / d)) * (d * ulp (n / d)) : Nat) := by
    unfold rneMag; push_cast; ring
  rw [hR]
  have mult := nearestEven_nearest hD n
  by_cases hum : ulp (n / d) ∣ m
  · obtain ⟨k, hk⟩ := hum
    have hmd : (m * d : Int) = (k * (d * ulp (n / d)) : Nat) := by rw [hk]; push_cast; ring
    rw [hmd]
    refine ⟨(mult k).1, fun he hne => (mult k).2 he ?_⟩
    rintro rfl
    exact hne (by rw [hk, rneMag, Nat.mul_comm])
  · have hlt : ulp m < ulp (n / d) := by
      by_contra hc
      exact hum ((ulp_dvd_ulp (Nat.le_of_not_lt hc)).trans hm)
    have hlow := two_pow_mul_ulp_le (q := n / d) (by have := ulp_pos m; omega)
    have hdbl : 2 * ulp m ≤ ulp (n / d) := by
      unfold ulp at hlt ⊢
      have := (Nat.pow_lt_pow_iff_right (by decide : 1 < 2)).1 hlt
      calc 2 * 2 ^ (m.log2 - 52) = 2 ^ (m.log2 - 52 + 1) := by rw [Nat.pow_succ]; ring
        _ ≤ _ := Nat.pow_le_pow_right (by decide) this
    have hmlt : m < 2 ^ 52 * ulp (n / d) := by
      have := lt_two_pow_mul_ulp m
      omega
    have a1 : m * d < 2 ^ 52 * (d * ulp (n / d)) := by
      calc m * d < 2 ^ 52 * ulp (n / d) * d := Nat.mul_lt_mul_of_pos_right hmlt hd
        _ = _ := by ring
    have a2 : 2 ^ 52 * (d * ulp (n / d)) ≤ n := by
      calc 2 ^ 52 * (d * ulp (n / d)) = d * (2 ^ 52 * ulp (n / d)) := by ring
        _ ≤ d * (n / d) := Nat.mul_le_mul_left d hlow
        _ ≤ n := Nat.mul_div_le n d
    have b := (mult (2 ^ 52)).1
    have c : (m * d : Int) = ((m * d : Nat) : Int) := by push_cast; ring
    rw [c]
    generalize m * d = M at *
    generalize 2 ^ 52 * (d * ulp (n / d)) = K at *
    generalize nearestEven n (d * ulp (n / d)) * (d * ulp (n / d)) = A at *
    exact ⟨by omega, fun he => by omega⟩

/-! ### Patterns -/

theorem append_toNat (b : Bool) (v : Nat) (h : v < 2 ^ 63) :
    (BitVec.ofBool b ++ BitVec.ofNat 63 v).toNat = b.toNat * 2 ^ 63 + v := by
  rw [BitVec.toNat_append, BitVec.toNat_ofNat, Nat.mod_eq_of_lt h, ← Nat.shiftLeft_add_eq_or_of_lt h, Nat.shiftLeft_eq]
  simp

theorem toPattern_sign (a : F64) : (toPattern a).getLsbD 63 = a.neg := by
  unfold toPattern
  dsimp only
  rw [BitVec.getLsbD_append]
  simp

theorem expField_eq (w : Word64) : expField w = w.toNat / 2 ^ 52 % 2 ^ 11 := by
  simp [expField, Nat.shiftRight_eq_div_pow]

theorem fracField_eq (w : Word64) : fracField w = w.toNat % 2 ^ 52 := by
  simp [fracField]

/-- The exponent and fraction fields of the pattern of a finite magnitude. -/
theorem toPattern_fields {a : F64} (hd : ulp a.mag ∣ a.mag) (hf : a.mag < 2 ^ 2098) :
    (a.mag < 2 ^ 52 ∧ expField (toPattern a) = 0 ∧ fracField (toPattern a) = a.mag) ∨
    (∃ s m, s ≤ 2045 ∧ 2 ^ 52 ≤ m ∧ m < 2 ^ 53 ∧ a.mag = m * 2 ^ s ∧ ulp a.mag = 2 ^ s ∧ expField (toPattern a) = s + 1 ∧ fracField (toPattern a) = m - 2 ^ 52) := by
  have hb : a.neg.toNat ≤ 1 := by cases a.neg <;> decide
  have key : ∀ v, v < 2 ^ 63 → (a.mag.log2 - 52) * 2 ^ 52 + a.mag / 2 ^ (a.mag.log2 - 52) = v →
      expField (toPattern a) = v / 2 ^ 52 ∧ fracField (toPattern a) = v % 2 ^ 52 := by
    intro v hv e
    rw [expField_eq, fracField_eq]
    unfold toPattern
    dsimp only
    rw [e, append_toNat _ _ hv]
    constructor <;> omega
  by_cases hs : a.mag < 2 ^ 53
  · have hl : a.mag.log2 - 52 = 0 := by
      rcases Nat.eq_zero_or_pos a.mag with h0 | hq
      · rw [h0]; rfl
      · have : a.mag.log2 < 53 := (Nat.log2_lt (by omega)).2 hs
        omega
    obtain ⟨k1, k2⟩ := key a.mag (by omega) (by rw [hl]; simp)
    by_cases h52 : a.mag < 2 ^ 52
    · exact .inl ⟨h52, by omega, by omega⟩
    · exact .inr ⟨0, a.mag, by omega, by omega, hs, by simp, ulp_eq_one hs, by omega, by omega⟩
  · right
    have h0 : a.mag ≠ 0 := by omega
    have hl : a.mag.log2 < 2098 := (Nat.log2_lt h0).2 hf
    have hl2 : 53 ≤ a.mag.log2 := (Nat.le_log2 h0).2 (by omega)
    obtain ⟨m, hm⟩ := hd
    unfold ulp at *
    generalize hsd : a.mag.log2 - 52 = s at *
    have b1 : 2 ^ (52 + s) ≤ a.mag := by rw [show 52 + s = a.mag.log2 from by omega]; exact Nat.log2_self_le h0
    have b2 : a.mag < 2 ^ (53 + s) := by rw [show 53 + s = a.mag.log2 + 1 from by omega]; exact Nat.lt_log2_self
    rw [Nat.pow_add] at b1 b2
    have hp : 0 < 2 ^ s := Nat.two_pow_pos s
    have hm1 : 2 ^ 52 ≤ m := by
      rw [hm, Nat.mul_comm] at b1
      exact Nat.le_of_mul_le_mul_left b1 hp
    have hm2 : m < 2 ^ 53 := by
      rw [hm, Nat.mul_comm (2 ^ 53)] at b2
      exact Nat.lt_of_mul_lt_mul_left b2
    have hq : a.mag / 2 ^ s = m := by rw [hm, Nat.mul_div_cancel_left _ hp]
    obtain ⟨k1, k2⟩ := key (s * 2 ^ 52 + m) (by omega) (by rw [hq])
    exact ⟨s, m, by omega, hm1, hm2, by rw [hm, Nat.mul_comm], rfl, by omega, by omega⟩

/-- `toPattern` is the inverse of `f64` on finite values. -/
theorem f64_toPattern {a : F64} (hd : ulp a.mag ∣ a.mag) (hf : a.mag < 2 ^ 2098) :
    f64 (toPattern a) = a ∧ expField (toPattern a) < 2047 ∧ fracField (toPattern a) % 2 = a.mag / ulp a.mag % 2 := by
  have hsgn := toPattern_sign a
  have hmag : f64 (toPattern a) = ⟨a.neg, (f64 (toPattern a)).mag⟩ := congrArg (F64.mk · (f64 (toPattern a)).mag) hsgn
  rw [hmag]
  rcases toPattern_fields hd hf with ⟨h1, h2, h3⟩ | ⟨s, m, h1, h2, h3, h4, h5, h6, h7⟩
  · refine ⟨?_, by omega, by rw [h3, ulp_eq_one (by omega), Nat.div_one]⟩
    simp [f64, h2, h3]
  · refine ⟨?_, by omega, ?_⟩
    · simp only [f64, h6, h7, Nat.add_sub_cancel, Nat.succ_ne_zero, if_false, Nat.add_sub_cancel' h2, ← h4]
    · rw [h5, h4, Nat.mul_div_cancel _ (Nat.two_pow_pos s), h7]
      omega

/-! ### `rne` over the rationals -/

theorem valueOf_sub (w : Word64) (neg : Bool) (n : Nat) {d : Nat} (hd : 0 < d) :
    |valueOf w - (if neg then -1 else 1) * (n : ℚ) / (d * unitsPerOne)| =
      (((f64 w).toInt * d - (if neg then -(n : Int) else n)).natAbs : ℚ) / (d * unitsPerOne) := by
  have hU : (0 : ℚ) < unitsPerOne := by exact_mod_cast unitsPerOne_pos
  have hd' : (0 : ℚ) < d := by exact_mod_cast hd
  have e : valueOf w - (if neg then -1 else 1) * (n : ℚ) / (d * unitsPerOne) =
      (((f64 w).toInt * d - (if neg then -(n : Int) else n) : Int) : ℚ) / (d * unitsPerOne) := by
    unfold valueOf F64.toRat
    cases neg <;> (simp; field_simp; try ring)
  rw [e, abs_div, abs_of_pos (mul_pos hd' hU), Nat.cast_natAbs, Int.cast_abs]

/-- The distance of any pattern's value to `±n/d`, against that of the rounded magnitude. -/
theorem distance_cmp (neg : Bool) (n : Nat) {d : Nat} (hd : 0 < d) (u : Word64) :
    ((rneMag n d * d : Int) - n).natAbs ≤ ((f64 u).toInt * d - (if neg then -(n : Int) else n)).natAbs ∧
      (((f64 u).toInt * d - (if neg then -(n : Int) else n)).natAbs = ((rneMag n d * d : Int) - n).natAbs →
        (f64 u).toInt ≠ (F64.mk neg (rneMag n d)).toInt → nearestEven n (d * ulp (n / d)) % 2 = 0) := by
  obtain ⟨h1, h2⟩ := rneMag_nearest hd n (ulp_dvd_f64 u)
  have h0 := (rneMag_nearest hd n (m := 0) (dvd_zero _)).1
  generalize rneMag n d = R at *
  generalize nearestEven n (d * ulp (n / d)) % 2 = parity at *
  have hzero : ((f64 u).mag : Int) * d = 0 → (f64 u).mag = 0 := by
    intro h
    rcases Int.mul_eq_zero.1 h with h | h <;> omega
  have hnonneg : 0 ≤ ((f64 u).mag : Int) * d := by positivity
  unfold F64.toInt
  cases hu : (f64 u).neg <;> cases neg <;> simp only [if_true, if_false, Bool.false_eq_true, Int.neg_mul] at *
  · exact ⟨h1, fun he hne => h2 he (by omega)⟩
  · refine ⟨by omega, fun he hne => ?_⟩
    have hm := hzero (by omega)
    rw [hm] at h2 he hne
    exact h2 (by omega) (by omega)
  · refine ⟨by omega, fun he hne => ?_⟩
    have hm := hzero (by omega)
    rw [hm] at h2 he hne
    exact h2 (by omega) (by omega)
  · exact ⟨by omega, fun he hne => h2 (by omega) (by omega)⟩

/-- When the rounding of the quotient is even, so is the significand of the rounded magnitude. -/
theorem rneMag_even {d : Nat} (hd : 0 < d) {n : Nat} (h : nearestEven n (d * ulp (n / d)) % 2 = 0) :
    rneMag n d / ulp (rneMag n d) % 2 = 0 := by
  have hle := nearestEven_le hd n
  have hpos := ulp_pos (rneMag n d)
  rcases Nat.lt_or_ge (ulp (n / d)) (ulp (rneMag n d)) with hlt | hge
  · have hlow := two_pow_mul_ulp_le (q := rneMag n d) (by have := ulp_pos (n / d); omega)
    have hdbl : 2 * ulp (n / d) ≤ ulp (rneMag n d) := by
      unfold ulp at hlt ⊢
      have := (Nat.pow_lt_pow_iff_right (by decide : 1 < 2)).1 hlt
      calc 2 * 2 ^ ((n / d).log2 - 52) = 2 ^ ((n / d).log2 - 52 + 1) := by rw [Nat.pow_succ]; ring
        _ ≤ _ := Nat.pow_le_pow_right (by decide) this
    have hup : rneMag n d ≤ 2 ^ 52 * (2 * ulp (n / d)) := by
      calc rneMag n d ≤ 2 ^ 53 * ulp (n / d) := Nat.mul_le_mul_right _ hle
        _ = _ := by ring
    have he : rneMag n d = 2 ^ 52 * ulp (rneMag n d) := by omega
    rw [Nat.div_eq_of_eq_mul_left hpos he]
    rfl
  · obtain ⟨k, hk⟩ := ulp_dvd_ulp hge
    obtain ⟨j, hj⟩ := Nat.dvd_of_mod_eq_zero h
    have he : rneMag n d = 2 * (j * k) * ulp (rneMag n d) := by
      conv_lhs => rw [rneMag, hj, hk]
      ring
    rw [Nat.div_eq_of_eq_mul_left hpos he]
    omega

/-- The pattern of `rneMag n d`, with a sign, is `rne(±n/d)`. -/
theorem isRne_toPattern (neg : Bool) (n : Nat) {d : Nat} (hd : 0 < d) (hf : rneMag n d < 2 ^ 2098) :
    IsRne ((if neg then -1 else 1) * (n : ℚ) / (d * unitsPerOne)) (toPattern ⟨neg, rneMag n d⟩) := by
  obtain ⟨hv, he, hfrac⟩ := f64_toPattern (a := ⟨neg, rneMag n d⟩) (rneMag_ulp_dvd hd n) hf
  have hpos : (0 : ℚ) < d * unitsPerOne := by
    have := unitsPerOne_pos
    exact_mod_cast Nat.mul_pos hd this
  have hw : ((f64 (toPattern ⟨neg, rneMag n d⟩)).toInt * d - (if neg then -(n : Int) else n)).natAbs = ((rneMag n d * d : Int) - n).natAbs := by
    rw [hv]; cases neg <;> simp
    omega
  have cmp := distance_cmp neg n hd
  refine ⟨he, fun u hu => ?_, fun u hu heq hne => ?_⟩
  · rw [valueOf_sub _ neg n hd, valueOf_sub _ neg n hd, div_le_div_iff_of_pos_right hpos, hw]
    exact_mod_cast (cmp u).1
  · rw [valueOf_sub _ neg n hd, valueOf_sub _ neg n hd, div_left_inj' hpos.ne', hw] at heq
    have hne' : (f64 u).toInt ≠ (F64.mk neg (rneMag n d)).toInt := by
      intro h
      apply hne
      rw [valueOf, valueOf, hv, F64.toRat, F64.toRat, h]
    rw [hfrac]
    exact rneMag_even hd ((cmp u).2 (by exact_mod_cast heq) hne')

/-! ### Real values and signed numbers of units -/

theorem valueOf_lt_iff (w u : Word64) : valueOf w < valueOf u ↔ (f64 w).toInt < (f64 u).toInt := by
  have h : (0 : ℚ) < unitsPerOne := by exact_mod_cast unitsPerOne_pos
  unfold valueOf F64.toRat
  rw [div_lt_div_iff_of_pos_right h]
  exact_mod_cast Iff.rfl

theorem valueOf_le_iff (w u : Word64) : valueOf w ≤ valueOf u ↔ (f64 w).toInt ≤ (f64 u).toInt := by
  rw [← not_lt, ← not_lt, valueOf_lt_iff]

theorem valueOf_posOne : valueOf posOne = 1 := by
  have h : (0 : ℚ) < unitsPerOne := by exact_mod_cast unitsPerOne_pos
  rw [valueOf, F64.toRat, f64_posOne]
  simp [h.ne']

theorem valueOf_negOne : valueOf negOne = -1 := by
  have h : (0 : ℚ) < unitsPerOne := by exact_mod_cast unitsPerOne_pos
  rw [valueOf, F64.toRat, f64_negOne]
  simp [h.ne']

end Sys2Proof.Machine
end

