-- ==== Sys2Proof/Tests/Slice0.lean ====
section
/-! SUPPORT. The model's own tests: expected results are the spec's vectors (95_test_vectors.md) and its tables; then one
witness for every statement that has hypotheses. -/

namespace Sys2Proof.Tests

open Sys2Proof Sys2Proof.Machine

/-! ### Helpers -/

/-- The response of a step, none if the step stops or answers nothing. -/
def responseOf : Result → Option Response
  | .next t => t.response
  | .fault _ => none
  | .refused _ => none

/-- The channels after a step. -/
def channelsOf : Result → Option Channels
  | .next t => some t.ch
  | .fault _ => none
  | .refused _ => none

/-- What the block answers to a request triple right after reset. -/
def ask (req : Word32) (d : Word64) (inp : List Byte) : Option Response :=
  responseOf (step (State.reset.present (.request ⟨req, d, inp⟩)))

/-- A state with the given channels and events. -/
def withChannels (ch : Channels) (inputs : List HostEvent) : State := ⟨ch, inputs, none⟩

/-! ### Well-formedness: each check refuses an ill-formed term -/

theorem test_wf_bldcmd_refuses : (Instr.bldcmd 0x10 (List.replicate 65536 0xFF)).wellFormed = false := by
  rw [Instr.wellFormed, List.length_replicate]
  rfl

theorem test_wf_bldcmd_accepts : (Instr.bldcmd 0x10 (List.replicate 65535 0xFF)).wellFormed = true := by
  rw [Instr.wellFormed, List.length_replicate]
  rfl

theorem test_wf_cksum_refuses : (Instr.cksum (List.replicate 65536 0)).wellFormed = false := by
  rw [Instr.wellFormed, List.length_replicate]
  rfl

theorem test_wf_cksum_accepts : (Instr.cksum (List.replicate 65535 0)).wellFormed = true := by
  rw [Instr.wellFormed, List.length_replicate]
  rfl

/-! ### Decoding: words written out from the encodings (30_encoding.md R33, R34, R36; opcode table, wire frames) -/

/-- `OP` = 0001, bits 27..3 zero, `AXIS` = 101. -/
theorem test_decode_setax :
    decode (.request ⟨0b00010000000000000000000000000101#32, 0x3FE0000000000000#64, []⟩) =
      .ok (.setax .aux2 0x3FE0000000000000#64) := rfl

/-- `OP` = 0010, bits 27..3 zero, `AXIS` = 010. -/
theorem test_decode_rdax :
    decode (.request ⟨0b00100000000000000000000000000010#32, 7#64, []⟩) = .ok (.rdax .yaw) := rfl

/-- `OP` = 0011, every other bit zero. -/
theorem test_decode_bldrc : decode (.request ⟨0b00110000000000000000000000000000#32, 0, []⟩) = .ok .bldrc := rfl

/-- `OP` = 0100, `RSV` = 0000, `ID` = 10010110, `LEN` = 2. -/
theorem test_decode_bldcmd :
    decode (.request ⟨0b01000000100101100000000000000010#32, 0, [0xAA, 0xBB]⟩) = .ok (.bldcmd 0x96 [0xAA, 0xBB]) := rfl

/-- `OP` = 0101, `RSV` = 0000, `ID` = 01100100, `LEN` = 0. -/
theorem test_decode_bldsmp : decode (.request ⟨0b01010000011001000000000000000000#32, 0, []⟩) = .ok (.bldsmp 0x64) := rfl

/-- `OP` = 0110, `RSV` and `ID` zero, `LEN` = 6. -/
theorem test_decode_cksum :
    decode (.request ⟨0b01100000000000000000000000000110#32, 0, [1, 2, 3, 4, 5, 6]⟩) = .ok (.cksum [1, 2, 3, 4, 5, 6]) := rfl

/-- The table's string with r = 1, p = 2, y = 3, t = 4, x = 5, and c = 0x93 ^ 1 ^ 2 ^ 3 ^ 4 ^ 5 = 0x92. -/
theorem test_decode_setRawRcTiny :
    decode (.command [0b00100100, 0b01001101, 0b00111100, 0b00000101, 0b10010110, 1, 2, 3, 4, 5, 0x92]) =
      .ok (.setRawRcTiny 1 2 3 4 5) := rfl

theorem test_decode_setRawRcTiny_checksum :
    decode (.command [0x24, 0x4D, 0x3C, 0x05, 0x96, 1, 2, 3, 4, 5, 0x93]) = .error .notNamedCommand := rfl

theorem test_decode_rcinit :
    decode (.command [0b00100100, 0b01001101, 0b00111100, 0b00000000, 0b10010110, 0b10010110]) = .ok .rcinit := rfl
theorem test_decode_arm :
    decode (.command [0b00100100, 0b01001101, 0b00111100, 0b00000000, 0b10010111, 0b10010111]) = .ok .arm := rfl
theorem test_decode_disarm :
    decode (.command [0b00100100, 0b01001101, 0b00111100, 0b00000000, 0b10011000, 0b10011000]) = .ok .disarm := rfl
theorem test_decode_trimUp :
    decode (.command [0b00100100, 0b01001101, 0b00111100, 0b00000000, 0b10011001, 0b10011001]) = .ok .trimUp := rfl
theorem test_decode_trimDown :
    decode (.command [0b00100100, 0b01001101, 0b00111100, 0b00000000, 0b10011010, 0b10011010]) = .ok .trimDown := rfl
theorem test_decode_trimLeft :
    decode (.command [0b00100100, 0b01001101, 0b00111100, 0b00000000, 0b10011011, 0b10011011]) = .ok .trimLeft := rfl
theorem test_decode_trimRight :
    decode (.command [0b00100100, 0b01001101, 0b00111100, 0b00000000, 0b10011100, 0b10011100]) = .ok .trimRight := rfl

/-- The rows numbered as the table numbers them: `BLDCMD` with `LEN` = 3, the RC row with its operand bits 0 (both byte
orders), and `ARM` (both byte orders), log 11. -/
theorem test_table_words :
    decodeTableWord 32 0x40C80003 = some (.bldcmd 0xC8 [0, 0, 0]) ∧
    decodeTableWord 88 0x244D3C0596000000000000 = some (.setRawRcTiny 0 0 0 0 0) ∧
    decodeTableWord 88 0x96053C4D24 = some (.setRawRcTiny 0 0 0 0 0) ∧
    decodeTableWord 48 0x244D3C009797 = some .arm ∧ decodeTableWord 48 0x9797003C4D24 = some .arm := by decide

/-- The very next step after reset runs the word placed. -/
theorem test_withFetchWord :
    responseOf (step (State.reset.withFetchWord 48 0x244D3C009898)) = some ⟨.ok, [0x24, 0x4D, 0x3C, 0, 0x98, 0x98], 0⟩ := by
  decide

/-! ### Results: 95_test_vectors.md -/

/-- P2 step 1: 1.7 is stored as 1.0. -/
theorem test_setax_clamps :
    channelsOf (exec (.setax .roll 0x3FFB333333333333#64) State.reset) =
      some { Channels.centred with roll := 0x3FF0000000000000#64 } := by decide +kernel

/-- V-ER16: a signalling NaN, and nothing stored. -/
theorem test_setax_nan :
    step (State.reset.present (.request ⟨0x10000001#32, 0x7FF0000000000001#64, []⟩)) =
      .next { State.reset with response := some ⟨.nanInput, [], 0⟩ } := rfl

/-- P5 step 3: −0.0 reads back with its sign. -/
theorem test_rdax_negative_zero :
    responseOf (exec (.rdax .yaw) (withChannels { Channels.centred with yaw := 0x8000000000000000#64 } [])) =
      some ⟨.ok, [], 0x8000000000000000#64⟩ := rfl

/-- F9: roll −0.8, pitch 0.992, yaw the largest value below 1, throttle the smallest negative subnormal, and the aux
channels at and next to the thresholds. -/
theorem test_bldrc_edges :
    responseOf (exec .bldrc (withChannels ⟨0xBFE999999999999A, 0x3FEFBE76C8B43958, 0x3FEFFFFFFFFFFFFF,
      0x8000000000000001, 0xBFE54FDF3B645A1E, 0xBFE54FDF3B645A1D, 0x3FD54FDF3B645A1C, 0x3FD54FDF3B645A1D⟩ [])) =
    some ⟨.ok, [0x24, 0x4D, 0x3C, 0x05, 0x96, 0x19, 0xF9, 0xFA, 0x7D, 0x16, 0xE2], 0⟩ := by decide +kernel

/-- V-BC5: payload bytes equal to the header are copied. -/
theorem test_bldcmd_header_bytes :
    ask 0x40240003 0 [0x24, 0x4D, 0x3C] = some ⟨.ok, [0x24, 0x4D, 0x3C, 0x03, 0x24, 0x24, 0x4D, 0x3C, 0x72], 0⟩ := by decide

/-- V-BC9: 256 bytes are too many. -/
theorem test_bldcmd_too_large :
    ask 0x40100100 0 (List.replicate 256 0xFF) = some ⟨.payloadTooLarge, [], 0⟩ := by decide +kernel

/-- V-BS10. -/
theorem test_bldsmp_any_id : ask 0x50FF0000 0 [] = some ⟨.ok, [0x24, 0x4D, 0x3C, 0x00, 0xFF, 0xFF], 0⟩ := by decide

/-- V-CK4: byte 3 disagrees with `LEN`, and the header is wrong; folded anyway. -/
theorem test_cksum_validates_nothing :
    ask 0x60000006 0 [0x24, 0x4D, 0x3E, 0x07, 0x97, 0x55] = some ⟨.ok, [], 0x90⟩ := by decide

/-- V-CK5. -/
theorem test_cksum_short : ask 0x60000005 0 [1, 2, 3, 4, 5] = some ⟨.checksumLength, [], 0⟩ := by decide

/-- V-ER10: illegal wins over too large. -/
theorem test_illegal_first : ask 0x41000100 0 (List.replicate 256 0) = some ⟨.illegalRequest, [], 0⟩ := by decide +kernel

/-- F1 as a named command. -/
theorem test_setRawRcTiny :
    responseOf (exec (.setRawRcTiny 0x7D 0x7D 0x7D 0x7D 0x55) State.reset) =
      some ⟨.ok, [0x24, 0x4D, 0x3C, 0x05, 0x96, 0x7D, 0x7D, 0x7D, 0x7D, 0x55, 0xC6], 0⟩ := rfl

/-- V-BS1 to V-BS7, as named commands. -/
theorem test_simple_commands :
    [Instr.rcinit, .arm, .disarm, .trimUp, .trimDown, .trimLeft, .trimRight].map
      (fun i => (responseOf (exec i State.reset)).map (·.out)) =
    [0x96, 0x97, 0x98, 0x99, 0x9A, 0x9B, 0x9C].map (fun id : Byte => some [0x24, 0x4D, 0x3C, 0x00, id, id]) := by decide

/-- Section 2.1, rows 0.1 and 0.007999999999999998: where one rounding per operation matters. -/
theorem test_quantize_rows :
    quantize config 0x3FB999999999999A = 0x89 ∧ quantize config 0x3F80624DD2F1A9FB = 0x7E := by decide +kernel

/-- P3 step 1 and P2 step 1 in assembly, and a line with a pseudo-instruction and a comment. -/
theorem test_assemble :
    assembleLine "SETAX throttle, -0.5".toList = some [⟨0x10000003, 0xBFE0000000000000, []⟩] ∧
    assembleLine "SETAX roll, 1.7".toList = some [⟨0x10000000, 0x3FFB333333333333, []⟩] ∧
    assembleLine "TRIMRIGHT ; default ID_TRIM_RIGHT".toList = some [⟨0x509C0000, 0, []⟩] ∧
    assembleLine "BLDCMD 0xC8, [0x01, 0x02, 256]".toList = none := by decide +kernel

/-! ### Witnesses: for every statement with hypotheses, concrete values that meet them, at the boundaries of its clauses -/

/-- EncodeThenDecode: the longest `IN`, for both instructions that are not well formed by their type alone. -/
theorem witness_EncodeThenDecode :
    (Instr.bldcmd 0xFF (List.replicate 65535 0)).wellFormed = true ∧
      (Instr.cksum (List.replicate 65535 0)).wellFormed = true ∧ (Instr.setax .aux4 0).wellFormed = true := by
  refine ⟨?_, ?_, rfl⟩ <;> (rw [Instr.wellFormed, List.length_replicate]; rfl)

/-- DecodedRequestReencodes: with `D` read, and with `D` ignored. -/
theorem witness_DecodedRequestReencodes :
    decode (.request ⟨0x10000007#32, 9#64, []⟩) = .ok (.setax .aux4 9#64) ∧
      decode (.request ⟨0x50FF0000#32, 9#64, []⟩) = .ok (.bldsmp 0xFF) := ⟨rfl, rfl⟩

theorem witness_DecodedCommandReencodes :
    decode (.command [0x24, 0x4D, 0x3C, 0x05, 0x96, 0xFF, 0, 0, 0, 0, 0x6C]) = .ok (.setRawRcTiny 0xFF 0 0 0 0) ∧
      decode (.command [0x24, 0x4D, 0x3C, 0x00, 0x96, 0x96]) = .ok .rcinit := ⟨rfl, rfl⟩

theorem witness_RequestDecodingTotalAndUnambiguous :
    ReqOp.setax.selects 0x10000007#32 = true ∧ ReqOp.cksum.selects 0x6000FFFF#32 = true := ⟨rfl, rfl⟩

/-- IllegalRequestsAnswered: every disjunct, at its boundary (V-ER1 to V-ER13, V-BC11, V-CK9). -/
theorem witness_IllegalRequestsAnswered :
    IllegalRequest ⟨0x00000000#32, 0, []⟩ ∧ IllegalRequest ⟨0x70000000#32, 0, []⟩ ∧
    IllegalRequest ⟨0xF0000000#32, 0, []⟩ ∧ IllegalRequest ⟨0x10000008#32, 0, []⟩ ∧
    IllegalRequest ⟨0x21000000#32, 0, []⟩ ∧ IllegalRequest ⟨0x30000001#32, 0, []⟩ ∧
    IllegalRequest ⟨0x41000000#32, 0, []⟩ ∧ IllegalRequest ⟨0x50970001#32, 0, []⟩ ∧
    IllegalRequest ⟨0x51000000#32, 0, []⟩ ∧ IllegalRequest ⟨0x60010000#32, 0, []⟩ ∧
    IllegalRequest ⟨0x40000001#32, 0, []⟩ ∧ IllegalRequest ⟨0x60000000#32, 0, [0]⟩ ∧
    IllegalRequest ⟨0x10000000#32, 0, [0]⟩ ∧ IllegalRequest ⟨0x20000000#32, 0, [0]⟩ ∧
    IllegalRequest ⟨0x30000000#32, 0, [0]⟩ ∧ IllegalRequest ⟨0x50970000#32, 0, [0]⟩ ∧
    ¬ IllegalRequest ⟨0x60000001#32, 0, [0]⟩ := by
  refine ⟨?_, ?_, ?_, ?_, ?_, ?_, ?_, ?_, ?_, ?_, ?_, ?_, ?_, ?_, ?_, ?_, ?_⟩ <;> (unfold IllegalRequest; decide)

/-- RequestStatusDecidedInOrder has no hypothesis; each of its equivalences holds of a request that meets it:
V-BC9 (256), V-CK5 (5), V-CK8 (262), V-ER16, and V-BC7 (255) and V-CK7 (261), which succeed. -/
theorem witness_RequestStatusDecidedInOrder :
    (ask 0x40100100 0 (List.replicate 256 0xFF)).map (·.status) = some .payloadTooLarge ∧
    (ask 0x60000005 0 (List.replicate 5 0)).map (·.status) = some .checksumLength ∧
    (ask 0x60000106 0 (List.replicate 262 0)).map (·.status) = some .checksumLength ∧
    (ask 0x10000001 0x7FF0000000000001 []).map (·.status) = some .nanInput ∧
    (ask 0x401000FF 0 (List.replicate 255 0xFF)).map (·.status) = some .ok ∧
    (ask 0x60000105 0 (List.replicate 261 0)).map (·.status) = some .ok := by decide +kernel

theorem witness_DataOperandReadBySetaxAlone :
    (0x10000000#32).extractLsb' 28 4 = 1#4 ∧ ¬ IllegalRequest ⟨0x10000000#32, 5#64, []⟩ ∧
      (0x30000000#32).extractLsb' 28 4 ≠ 1#4 := by
  refine ⟨by decide, ?_, by decide⟩
  unfold IllegalRequest
  decide

theorem witness_StepRunsDecodedInstruction :
    (State.reset.present (.request ⟨0x20000000#32, 0, []⟩)).inputs = .present (.request ⟨0x20000000#32, 0, []⟩) :: [] ∧
      decode (.request ⟨0x20000000#32, 0, []⟩) = .ok (.rdax .roll) := ⟨rfl, rfl⟩

/-- EveryRequestGetsOneResponse: its inner hypothesis, by an `RDAX` and by a `CKSUM` with `RES` not 0. -/
theorem witness_EveryRequestGetsOneResponse :
    (responseOf (step (withChannels { Channels.centred with roll := 0x3FF0000000000000#64 }
      [.present (.request ⟨0x20000000#32, 0, []⟩)]))).map (·.res != 0) = some true ∧
    (ask 0x60000006 0 [0x24, 0x4D, 0x3C, 0x00, 0x97, 0x97]).map (·.res != 0) = some true := by decide

theorem witness_ResetZeroesEveryChannel :
    (withChannels { Channels.centred with yaw := 1#64 } [.reset]).inputs = .reset :: [] := rfl

theorem witness_IdleBlockKeepsChannels : (withChannels { Channels.centred with yaw := 1#64 } []).inputs = [] := rfl

theorem witness_EveryStepKeepsTheInvariant :
    State.Inv (State.reset.present (.request ⟨0x30000000#32, 0, []⟩)) ∧
      (responseOf (step (State.reset.present (.request ⟨0x30000000#32, 0, []⟩)))).isSome = true := by
  refine ⟨⟨?_, fun r h => by cases h⟩, by decide⟩
  decide +kernel

/-- ChannelsWrittenOnlyBySetaxAndReset: a channel that a `SETAX` changes, one that reset changes, and an instruction that
is none of the three. -/
theorem witness_ChannelsWrittenOnlyBySetaxAndReset :
    (channelsOf (step (State.reset.present (.request ⟨0x10000000#32, 0x3FE0000000000000#64, []⟩)))).map (·.roll) =
      some 0x3FE0000000000000#64 ∧
    (channelsOf (step (withChannels { Channels.centred with roll := 1#64 } [.reset]))).map (·.roll) = some 0 ∧
    (∀ a d, Instr.arm ≠ .setax a d) ∧ (∀ a, Instr.arm ≠ .rdax a) ∧ Instr.arm ≠ .bldrc := by
  refine ⟨by decide +kernel, rfl, fun _ _ h => ?_, fun _ h => ?_, fun h => ?_⟩ <;> cases h

theorem witness_ErrorsHaveNoEffect :
    step (State.reset.present (.request ⟨0x70000000#32, 0, []⟩)) =
      .next { State.reset with response := some ⟨.illegalRequest, [], 0⟩ } ∧ Status.illegalRequest ≠ .ok :=
  ⟨rfl, by decide⟩

/-- StatusCodesAndCauses: each status is given. -/
theorem witness_StatusCodesAndCauses :
    (ask 0x00000000 0 []).map (·.status) = some .illegalRequest ∧
    (ask 0x40000100 0 (List.replicate 256 0)).map (·.status) = some .payloadTooLarge ∧
    (ask 0x60000000 0 []).map (·.status) = some .checksumLength ∧
    (ask 0x10000000 0xFFF0000000000001 []).map (·.status) = some .nanInput := by decide +kernel

/-- SetaxStoresTheClampedValue, clause by clause: the word; the lowest and the highest bit that must be 0, and `IN`; no NaN
(+∞, the pattern before the first NaN); the first NaN; the largest subnormal; and a `SETAX` that runs. -/
theorem witness_SetaxStoresTheClampedValue :
    (0x10000007#32 &&& 0xFFFFFFF8#32 = 0x10000000#32) ∧
    ((0x10000008#32).extractLsb' 28 4 = 1#4 ∧ (0x10000008#32).extractLsb' 3 25 ≠ 0) ∧
    ((0x18000000#32).extractLsb' 28 4 = 1#4 ∧ (0x18000000#32).extractLsb' 3 25 ≠ 0) ∧
    (0x10000000#32).extractLsb' 28 4 = 1#4 ∧ [(0 : Byte)] ≠ [] ∧
    isNaN 0x7FF0000000000000#64 = false ∧ isNaN 0x7FF0000000000001#64 = true ∧ expField 0x800FFFFFFFFFFFFF#64 = 0 ∧
    (responseOf (exec (.setax .roll 0x7FF0000000000000#64) State.reset)).isSome = true ∧
    (responseOf (exec (.setax .roll 0xFFF0000000000000#64) State.reset)).isSome = true ∧
    (responseOf (exec (.setax .roll 0x000FFFFFFFFFFFFF#64) State.reset)).isSome = true := by decide +kernel

theorem witness_RdaxReadsTheChannel :
    (0x20000007#32 &&& 0xFFFFFFF8#32 = 0x20000000#32) ∧
    ((0x20000008#32).extractLsb' 28 4 = 2#4 ∧ (0x20000008#32).extractLsb' 3 25 ≠ 0) ∧
    (0x20000000#32).extractLsb' 28 4 = 2#4 ∧ [(0 : Byte)] ≠ [] ∧
    isNaN 0xC000000000000000#64 = false ∧
    (responseOf (exec (.setax .pitch 0xC000000000000000#64) State.reset)).isSome = true := by decide +kernel

theorem witness_BldrcBuildsTheRcFrame :
    ((0x30000001#32).extractLsb' 28 4 = 3#4 ∧ 0x30000001#32 ≠ 0x30000000#32) ∧
    ((0x30000000#32).extractLsb' 28 4 = 3#4 ∧ [(0 : Byte)] ≠ []) ∧ State.Inv State.reset ∧
    (responseOf (exec .bldrc State.reset)).isSome = true := by
  refine ⟨by decide, by decide, ⟨?_, fun r h => by cases h⟩, by decide⟩
  decide +kernel

theorem witness_BldcmdFramesThePayload :
    (0x4010FFFF#32 &&& 0xFF000000#32 = 0x40000000#32 ∧
      (List.replicate 65535 (0 : Byte)).length = ((0x4010FFFF#32).extractLsb' 0 16).toNat) ∧
    ((0x41000000#32).extractLsb' 28 4 = 4#4 ∧ (0x41000000#32).extractLsb' 24 4 ≠ 0) ∧
    ((0x40000001#32).extractLsb' 28 4 = 4#4 ∧ ([] : List Byte).length ≠ ((0x40000001#32).extractLsb' 0 16).toNat) ∧
    (List.replicate 255 (0xFF : Byte)).length ≤ 255 ∧ 255 < (List.replicate 256 (0xFF : Byte)).length ∧
    (List.replicate 255 (0xFF : Byte)).length = 255 := by
  simp only [List.length_replicate]
  decide

theorem witness_BldsmpFramesTheId :
    (0x50FF0000#32 &&& 0xFF00FFFF#32 = 0x50000000#32) ∧
    ((0x51000000#32).extractLsb' 28 4 = 5#4 ∧ (0x51000000#32).extractLsb' 24 4 ≠ 0) ∧
    ((0x50008000#32).extractLsb' 28 4 = 5#4 ∧ (0x50008000#32).extractLsb' 0 16 ≠ 0) ∧
    ((0x50000000#32).extractLsb' 28 4 = 5#4 ∧ [(0 : Byte)] ≠ []) := by decide

theorem witness_CksumFoldsTheFrame :
    (0x60000001#32 &&& 0xFFFF0000#32 = 0x60000000#32 ∧
      [(0 : Byte)].length = ((0x60000001#32).extractLsb' 0 16).toNat) ∧
    ((0x60010000#32).extractLsb' 28 4 = 6#4 ∧ (0x60010000#32).extractLsb' 16 12 ≠ 0) ∧
    ((0x60000006#32).extractLsb' 28 4 = 6#4 ∧ [(0 : Byte)].length ≠ ((0x60000006#32).extractLsb' 0 16).toNat) ∧
    (2 ≤ (List.replicate 2 (0 : Byte)).length ∧ (List.replicate 257 (0 : Byte)).length ≤ 257) ∧
    (List.replicate 5 (0 : Byte)).length < 6 ∧ 261 < (List.replicate 262 (0 : Byte)).length ∧
    (List.replicate 255 (0 : Byte)).length ≤ 255 := by
  simp only [List.length_replicate]
  decide

theorem witness_RcFrameCommandBuildsItsFrame : State.Inv State.reset := by
  refine ⟨?_, fun r h => by cases h⟩
  decide +kernel

/-- WireOfNoCommandIsRefused: no bytes at all, and `ARM`'s frame with a wrong checksum. -/
theorem witness_WireOfNoCommandIsRefused :
    (∀ i, encode i ≠ .command []) ∧ ∀ i, encode i ≠ .command [0x24, 0x4D, 0x3C, 0x00, 0x97, 0x98] := by
  constructor <;> intro i h <;> cases i <;> cases h

/-- FrameLayout and FrameDelimitsItself: the longest payload, and a byte of it. -/
theorem witness_FrameLayout :
    (List.replicate 255 (0xFF : Byte)).length ≤ 255 ∧ 254 < (List.replicate 255 (0xFF : Byte)).length := by
  simp only [List.length_replicate]
  decide

theorem witness_FrameDelimitsItself : (List.replicate 255 (0xFF : Byte)).length ≤ 255 := by
  simp only [List.length_replicate]
  decide

theorem witness_XorfoldIgnoresOrder : [(1 : Byte), 2, 3].Perm [3, 1, 2] := by decide

theorem witness_FramerDependsOnTheRequestAlone :
    (∀ a d, Instr.cksum [] ≠ .setax a d) ∧ (∀ a, Instr.cksum [] ≠ .rdax a) ∧ Instr.cksum [] ≠ .bldrc := by
  refine ⟨fun _ _ h => ?_, fun _ h => ?_, fun h => ?_⟩ <;> cases h

/-- ClampRule: the values next to −1 and 1 on either side, and −1 and 1 themselves. -/
theorem witness_ClampRule :
    isNaN 0xBFF0000000000001#64 = false ∧ valueOf 0xBFF0000000000001#64 < -1 ∧
    isNaN 0x3FF0000000000001#64 = false ∧ 1 < valueOf 0x3FF0000000000001#64 ∧
    (isNaN 0xBFF0000000000000#64 = false ∧ -1 ≤ valueOf 0xBFF0000000000000#64 ∧ valueOf 0xBFF0000000000000#64 ≤ 1) ∧
    (isNaN 0x3FF0000000000000#64 = false ∧ -1 ≤ valueOf 0x3FF0000000000000#64 ∧ valueOf 0x3FF0000000000000#64 ≤ 1) := by
  rw [← valueOf_negOne, ← valueOf_posOne]
  simp only [valueOf_lt_iff, valueOf_le_iff]
  decide +kernel

/-- QuantizeRoundsStepByStep: an infinity, and the largest subnormal. -/
theorem witness_QuantizeRoundsStepByStep :
    isNaN 0xFFF0000000000000#64 = false ∧ expField 0x800FFFFFFFFFFFFF#64 = 0 := by decide

/-- QuantizeMonotoneAndBounded: two values next to each other where the byte changes (section 2.1), and the two zeros. -/
theorem witness_QuantizeMonotoneAndBounded :
    isNaN 0x3F80624DD2F1A9FA#64 = false ∧ isNaN 0x3F80624DD2F1A9FB#64 = false ∧
    valueOf 0x3F80624DD2F1A9FA#64 ≤ valueOf 0x3F80624DD2F1A9FB#64 ∧
    valueOf 0x0000000000000000#64 ≤ valueOf 0x8000000000000000#64 := by
  simp only [valueOf_le_iff]
  decide +kernel

theorem witness_QuantizeClampsFirst :
    isNaN 0xBFF0000000000001#64 = false ∧ valueOf 0xBFF0000000000001#64 < -1 ∧
      isNaN 0x3FF0000000000001#64 = false ∧ 1 < valueOf 0x3FF0000000000001#64 :=
  ⟨witness_ClampRule.1, witness_ClampRule.2.1, witness_ClampRule.2.2.1, witness_ClampRule.2.2.2.1⟩

/-- AuxcodeByThresholds: each threshold and the value next below it. -/
theorem witness_AuxcodeByThresholds :
    (isNaN 0xBFE54FDF3B645A1E#64 = false ∧ valueOf 0xBFE54FDF3B645A1E#64 < valueOf 0xBFE54FDF3B645A1D#64) ∧
    (isNaN 0xBFE54FDF3B645A1D#64 = false ∧ valueOf 0xBFE54FDF3B645A1D#64 < valueOf 0x3FD54FDF3B645A1D#64) ∧
    (isNaN 0x3FD54FDF3B645A1C#64 = false ∧ valueOf 0xBFE54FDF3B645A1D#64 ≤ valueOf 0x3FD54FDF3B645A1C#64 ∧
      valueOf 0x3FD54FDF3B645A1C#64 < valueOf 0x3FD54FDF3B645A1D#64) ∧ isNaN 0x3FD54FDF3B645A1D#64 = false := by
  simp only [valueOf_lt_iff, valueOf_le_iff]
  decide +kernel

/-- SignedZerosGiveTheNeutralFrame: a mixture of the two zeros. -/
theorem witness_SignedZerosGiveTheNeutralFrame :
    ∀ a, ({ Channels.centred with yaw := 0x8000000000000000#64, aux4 := 0x8000000000000000#64 } : Channels).read a =
        0x0000000000000000#64 ∨
      ({ Channels.centred with yaw := 0x8000000000000000#64, aux4 := 0x8000000000000000#64 } : Channels).read a =
        0x8000000000000000#64 := by
  intro a
  cases a <;> decide

/-- SnapshotSeesEveryEarlierWrite: two writes of one channel, then `BLDRC`, then something more. -/
theorem witness_SnapshotSeesEveryEarlierWrite :
    (∀ x ∈ [(Axis.yaw, 0x3FD3333333333333#64), (Axis.yaw, 0x8000000000000000#64)], isNaN x.2 = false) ∧
    (withChannels Channels.centred [.present (.request ⟨0x10000002#32, 0x3FD3333333333333#64, []⟩),
        .present (.request ⟨0x10000002#32, 0x8000000000000000#64, []⟩),
        .present (.request ⟨0x30000000#32, 0, []⟩), .reset]).inputs =
      [(Axis.yaw, 0x3FD3333333333333#64), (Axis.yaw, 0x8000000000000000#64)].map
        (fun x => .present (.request (setaxRequest x.1 x.2))) ++ .present (.request ⟨0x30000000#32, 0, []⟩) :: [.reset] := by
  decide

theorem witness_NextRequestSeesTheWrite :
    isNaN 0x3FE0000000000000#64 = false ∧
    (withChannels Channels.centred [.present (.request ⟨0x10000001#32, 0x3FE0000000000000#64, []⟩),
        .present (.request ⟨0x20000001#32, 0, []⟩)]).inputs =
      .present (.request ⟨0x10000000#32 ||| (axisNumber .pitch).setWidth 32, 0x3FE0000000000000#64, []⟩) ::
      .present (.request ⟨0x20000000#32 ||| (axisNumber .pitch).setWidth 32, 0, []⟩) :: [] := by decide

theorem witness_CenterCentresEveryChannel :
    (withChannels { Channels.centred with yaw := 0x3FD3333333333333#64 }
      ((AsmLine.center).requests.map (fun q => .present (.request q)))).inputs =
      (AsmLine.center).requests.map (fun q => .present (.request q)) ++ [] := by decide

theorem witness_AssembledLinesDecode : (List.replicate 65535 (0xFF : Byte)).length ≤ 65535 := by
  rw [List.length_replicate]

end Sys2Proof.Tests
end

section
/-! SUPPORT. A configured pattern is `rne` of a decimal: rounding the decimal's units with `rneMag` gives that pattern. -/

namespace Sys2Proof.Machine

open Sys2Proof

/-- A pattern that writes the rounding of `p/q`, counted in units, is `rne(±p/q)`. -/
theorem isRne_of_toPattern_eq {neg : Bool} {p q : Nat} {w : Word64} (hq : 0 < q)
    (hfinite : rneMag (p * unitsPerOne) q < 2 ^ 2098)
    (hw : toPattern ⟨neg, rneMag (p * unitsPerOne) q⟩ = w) :
    IsRne ((if neg then -1 else 1) * (p : ℚ) / q) w := by
  have hU : (unitsPerOne : ℚ) ≠ 0 := by exact_mod_cast unitsPerOne_pos.ne'
  have hrne := isRne_toPattern neg (p * unitsPerOne) hq hfinite
  rwa [hw, Nat.cast_mul, ← mul_assoc, mul_div_mul_right _ _ hU] at hrne

/-- `AUX_T_LO` is `rne(-0.666)` (00_scope.md R4). -/
theorem isRne_auxTLo : IsRne (-(666 / 1000)) config.auxTLo := by
  have hrne : IsRne ((if true then -1 else 1) * ((666 : Nat) : ℚ) / (1000 : Nat)) config.auxTLo :=
    isRne_of_toPattern_eq (by decide) (by decide +kernel) (by decide +kernel)
  have hx : (if true then -1 else 1) * ((666 : Nat) : ℚ) / (1000 : Nat) = -(666 / 1000) := by norm_num
  rwa [hx] at hrne

/-- `AUX_T_HI` is `rne(0.333)` (00_scope.md R4). -/
theorem isRne_auxTHi : IsRne (333 / 1000) config.auxTHi := by
  have hrne : IsRne ((if false then -1 else 1) * ((333 : Nat) : ℚ) / (1000 : Nat)) config.auxTHi :=
    isRne_of_toPattern_eq (by decide) (by decide +kernel) (by decide +kernel)
  have hx : (if false then -1 else 1) * ((333 : Nat) : ℚ) / (1000 : Nat) = 333 / 1000 := by norm_num
  rwa [hx] at hrne

/-- Settles O40: each threshold pattern is what `rneMag` and `toPattern` compute from its decimal. -/
theorem auxThresholdsAreNearest : Obligations.AuxThresholdsAreNearest :=
  ⟨isRne_auxTLo, isRne_auxTHi⟩

end Sys2Proof.Machine
end

section
/-! SUPPORT. The channels: what `clamp` stores and what reset writes is in range, and which step writes a channel. -/

namespace Sys2Proof.Machine

open Sys2Proof

theorem isNaN_clamp {w : Word64} (h : isNaN w = false) : isNaN (clamp w) = false := by
  unfold clamp
  split_ifs
  · decide
  · decide
  · exact h

/-- What `SETAX` stores is what 10_state.md R7 admits. -/
theorem inRange_clamp {w : Word64} (h : isNaN w = false) : InRange (clamp w) := by
  obtain ⟨hlow, hhigh⟩ := clamp_bounds w
  exact ⟨isNaN_clamp h, f64_negOne.trans_le hlow, hhigh.trans_eq f64_posOne.symm⟩

theorem inRange_zero : InRange 0 := by
  have hzero : (f64 0).toInt = 0 := by decide
  have hpos := unitsPerOne_pos
  refine ⟨by decide, ?_, ?_⟩
  · rw [F64.le, f64_negOne, hzero]
    omega
  · rw [F64.le, f64_posOne, hzero]
    omega

theorem Channels.inRange_centred : Channels.centred.inRange := by
  intro a _
  rw [Channels.read_centred]
  exact inRange_zero

theorem exec_keeps_inRange {i : Instr} {s t : State} (h : exec i s = .next t) (hs : s.ch.inRange) : t.ch.inRange := by
  rcases exec_cases i s with ⟨r, e⟩ | ⟨a, d, -, hnan, e⟩
  · cases e.symm.trans h
    exact hs
  · cases e.symm.trans h
    exact Channels.inRange_write hs a (inRange_clamp hnan)

/-- An instruction that changes a channel is a `SETAX` of that channel. -/
theorem exec_writes_channel {i : Instr} {s t : State} {a : Axis} (h : exec i s = .next t)
    (hne : t.ch.read a ≠ s.ch.read a) : ∃ d, i = .setax a d := by
  rcases exec_cases i s with ⟨r, e⟩ | ⟨b, d, hi, -, e⟩
  · cases e.symm.trans h
    exact absurd rfl hne
  · cases e.symm.trans h
    by_cases hab : a = b
    · subst hab
      exact ⟨d, hi⟩
    · exact absurd (Channels.read_write_of_ne s.ch _ hab) hne

/-- What an instruction other than `SETAX`, `RDAX` and `BLDRC` does is to give an answer that no state decides. -/
theorem exec_of_framer {i : Instr} (hsetax : ∀ a d, i ≠ .setax a d) (hrdax : ∀ a, i ≠ .rdax a) (hbldrc : i ≠ .bldrc) :
    ∃ r : Response, ∀ s, exec i s = .next { s with response := some r } := by
  cases i with
  | setax a d => exact absurd rfl (hsetax a d)
  | rdax a => exact absurd rfl (hrdax a)
  | bldrc => exact absurd rfl hbldrc
  | bldcmd id p =>
    by_cases h : p.length ≤ 255
    · exact ⟨_, execBldcmd_of_le h id⟩
    · exact ⟨_, execBldcmd_of_gt (by omega) id⟩
  | cksum wire =>
    by_cases h : wire.length < 6 ∨ 261 < wire.length
    · exact ⟨_, execCksum_of_bad_length h⟩
    · exact ⟨_, execCksum_of_length (by omega) (by omega)⟩
  | bldsmp id => exact ⟨_, execBldsmp_eq id⟩
  | setRawRcTiny => exact ⟨_, emitFrame_eq _ _⟩
  | rcinit => exact ⟨_, emitFrame_eq _ _⟩
  | arm => exact ⟨_, emitFrame_eq _ _⟩
  | disarm => exact ⟨_, emitFrame_eq _ _⟩
  | trimUp => exact ⟨_, emitFrame_eq _ _⟩
  | trimDown => exact ⟨_, emitFrame_eq _ _⟩
  | trimLeft => exact ⟨_, emitFrame_eq _ _⟩
  | trimRight => exact ⟨_, emitFrame_eq _ _⟩

/-- Settles O18: by the cases of a step for the first half; an instruction of the framer never looks at the state for the
second. -/
theorem channelsWrittenOnlyBySetaxAndReset : Obligations.ChannelsWrittenOnlyBySetaxAndReset := by
  refine ⟨fun s t a h hne => ?_, fun i s ch hsetax hrdax hbldrc => ?_⟩
  · rcases step_cases h with ⟨-, rfl⟩ | ⟨rest, hin, -⟩ | ⟨p, rest, r, -, -, -, rfl⟩ | ⟨p, rest, i, hin, hdec, hexec⟩
    · exact absurd rfl hne
    · exact .inl ⟨rest, hin⟩
    · exact absurd rfl hne
    · obtain ⟨d, rfl⟩ := exec_writes_channel hexec hne
      exact .inr ⟨p, d, rest, hin, hdec⟩
  · obtain ⟨r, hr⟩ := exec_of_framer hsetax hrdax hbldrc
    exact ⟨r, hr s, hr { s with ch := ch }⟩

/-- Settles O17: reset centres the channels and answers nothing. -/
theorem resetMeetsTheInvariant : Obligations.ResetMeetsTheInvariant :=
  ⟨Channels.inRange_centred, fun _ h => nomatch h⟩

end Sys2Proof.Machine
end

section
/-! SUPPORT. The responses: the four forms an instruction's answer can take, and what follows from the form. -/

namespace Sys2Proof.Machine

open Sys2Proof

/-- The answers an instruction can give at the channels `ch` (10_state.md R13): nothing but a status, a frame, the pattern
of the channel an `RDAX` reads, or the fold of a `CKSUM`. `exec_gives_answer` ties it to `exec`. -/
inductive AnswerOf (ch : Channels) : Instr → Response → Prop where
  | statusOnly (i : Instr) (st : Status) : AnswerOf ch i ⟨st, [], 0⟩
  | framed (i : Instr) (id : Byte) {p : List Byte} (hp : p.length ≤ 255) : AnswerOf ch i ⟨.ok, frame config id p, 0⟩
  | channel (a : Axis) : AnswerOf ch (.rdax a) ⟨.ok, [], ch.read a⟩
  | fold (wire : List Byte) : AnswerOf ch (.cksum wire) ⟨.ok, [], (xorfold (checksummedPart wire)).setWidth 64⟩

section Forms

variable {ch : Channels} {i : Instr} {r : Response}

theorem AnswerOf.out_eq (h : AnswerOf ch i r) :
    r.out = [] ∨ ∃ id p, p.length ≤ 255 ∧ r.out = frame config id p := by
  cases h with
  | statusOnly => exact .inl rfl
  | framed _ id hp => exact .inr ⟨id, _, hp, rfl⟩
  | channel => exact .inl rfl
  | fold => exact .inl rfl

theorem AnswerOf.out_length_le (h : AnswerOf ch i r) : r.out.length ≤ 261 := by
  rcases h.out_eq with hout | ⟨id, p, hp, hout⟩
  · rw [hout]
    exact Nat.zero_le _
  · rw [hout, frame_length]
    omega

theorem AnswerOf.of_res_ne_zero (h : AnswerOf ch i r) (hres : r.res ≠ 0) :
    r.status = .ok ∧ ((∃ a, i = .rdax a ∧ r.res = ch.read a) ∨
      ∃ wire, i = .cksum wire ∧ r.res = (xorfold (checksummedPart wire)).setWidth 64) := by
  cases h with
  | statusOnly => exact absurd rfl hres
  | framed => exact absurd rfl hres
  | channel a => exact ⟨rfl, .inl ⟨a, rfl, rfl⟩⟩
  | fold wire => exact ⟨rfl, .inr ⟨wire, rfl, rfl⟩⟩

theorem AnswerOf.of_error (h : AnswerOf ch i r) (herr : r.status ≠ .ok) : r.out = [] ∧ r.res = 0 := by
  cases h with
  | statusOnly => exact ⟨rfl, rfl⟩
  | framed => exact absurd rfl herr
  | channel => exact absurd rfl herr
  | fold => exact absurd rfl herr

theorem AnswerOf.wellShaped (h : AnswerOf ch i r) : r.wellShaped := ⟨h.out_length_le, h.of_error⟩

end Forms

/-- Building a frame gives an answer, of whatever instruction. -/
theorem emitFrame_gives_answer (i : Instr) (id : Byte) {p : List Byte} (hp : p.length ≤ 255) (s : State) :
    ∃ t r, emitFrame id p s = .next t ∧ t.inputs = s.inputs ∧ t.response = some r ∧ AnswerOf s.ch i r :=
  ⟨_, _, emitFrame_eq id p s, rfl, rfl, .framed i id hp⟩

theorem rcPayload_length_le (byteOf : RcField → Byte) : (rcPayload config byteOf).length ≤ 255 := by
  simp [rcPayload_config]

/-- Every instruction answers a next state, takes no event, and gives one of its answers. -/
theorem exec_gives_answer (i : Instr) (s : State) :
    ∃ t r, exec i s = .next t ∧ t.inputs = s.inputs ∧ t.response = some r ∧ AnswerOf s.ch i r := by
  cases i with
  | setax a d =>
    cases h : isNaN d with
    | true => exact ⟨_, _, execSetax_of_nan h a s, rfl, rfl, .statusOnly _ _⟩
    | false => exact ⟨_, _, execSetax_of_not_nan h a s, rfl, rfl, .statusOnly _ _⟩
  | rdax a => exact ⟨_, _, execRdax_eq a s, rfl, rfl, .channel a⟩
  | bldcmd id p =>
    by_cases h : p.length ≤ 255
    · exact ⟨_, _, execBldcmd_of_le h id s, rfl, rfl, .framed _ id h⟩
    · exact ⟨_, _, execBldcmd_of_gt (by omega) id s, rfl, rfl, .statusOnly _ _⟩
  | cksum wire =>
    by_cases h : wire.length < 6 ∨ 261 < wire.length
    · exact ⟨_, _, execCksum_of_bad_length h s, rfl, rfl, .statusOnly _ _⟩
    · exact ⟨_, _, execCksum_of_length (by omega) (by omega) s, rfl, rfl, .fold wire⟩
  | bldrc => exact emitFrame_gives_answer _ _ (rcPayload_length_le _) s
  | setRawRcTiny => exact emitFrame_gives_answer _ _ (rcPayload_length_le _) s
  | bldsmp => exact emitFrame_gives_answer _ _ (by decide) s
  | rcinit => exact emitFrame_gives_answer _ _ (by decide) s
  | arm => exact emitFrame_gives_answer _ _ (by decide) s
  | disarm => exact emitFrame_gives_answer _ _ (by decide) s
  | trimUp => exact emitFrame_gives_answer _ _ (by decide) s
  | trimDown => exact emitFrame_gives_answer _ _ (by decide) s
  | trimLeft => exact emitFrame_gives_answer _ _ (by decide) s
  | trimRight => exact emitFrame_gives_answer _ _ (by decide) s

/-- Settles O11: a request that decodes is answered as `AnswerOf` says, and any other with `ILLEGAL_REQUEST`. -/
theorem everyRequestGetsOneResponse : Obligations.EveryRequestGetsOneResponse := by
  intro q s
  rw [step_present]
  cases hdec : decode (.request q) with
  | ok i =>
    rw [perform_of_ok hdec]
    obtain ⟨t, r, hexec, hin, hresp, hr⟩ := exec_gives_answer i s
    refine ⟨t, r, hexec, hin, hresp, hr.out_eq, hr.out_length_le, fun hres => ?_⟩
    obtain ⟨hok, hcause⟩ := hr.of_res_ne_zero hres
    refine ⟨hok, hcause.imp ?_ ?_⟩
    · rintro ⟨a, rfl, ha⟩
      exact ⟨a, rfl, ha⟩
    · rintro ⟨wire, rfl, hwire⟩
      exact ⟨wire, rfl, hwire⟩
  | error e =>
    obtain ⟨-, hraise⟩ | ⟨hwire, -⟩ := rejectPresented_cases e s
    · rw [perform_of_error hdec, hraise, raise_eq]
      exact ⟨_, _, rfl, rfl, rfl, .inl rfl, Nat.zero_le _, fun hres => absurd rfl hres⟩
    · exact absurd hwire (decodeRequest_error_ne hdec)

/-! ### The invariant -/

/-- Every instruction keeps the invariant: of the state before it only the channels matter, since every answer is well
shaped. -/
theorem exec_keeps_Inv {i : Instr} {s t : State} (h : exec i s = .next t) (hs : s.ch.inRange) : t.Inv := by
  obtain ⟨t', r, hexec, -, hresp, hr⟩ := exec_gives_answer i s
  cases hexec.symm.trans h
  refine ⟨exec_keeps_inRange h hs, fun r' hr' => ?_⟩
  cases hresp.symm.trans hr'
  exact hr.wellShaped

/-- Settles O16: each case of a step keeps the channels in range and gives no response or a well-shaped one. -/
theorem everyStepKeepsTheInvariant : Obligations.EveryStepKeepsTheInvariant := by
  intro s t hs h
  obtain ⟨hch, -⟩ := hs
  rcases step_cases h with ⟨-, rfl⟩ | ⟨rest, -, rfl⟩ | ⟨p, rest, r, -, -, -, rfl⟩ | ⟨p, rest, i, -, -, hexec⟩
  · exact ⟨hch, fun _ hr => nomatch hr⟩
  · exact ⟨Channels.inRange_centred, fun _ hr => nomatch hr⟩
  · refine ⟨hch, fun r' hr => ?_⟩
    cases hr
    exact ⟨Nat.zero_le _, fun _ => ⟨rfl, rfl⟩⟩
  · exact exec_keeps_Inv hexec hch

end Sys2Proof.Machine
end

section
/-! SUPPORT. Events in order: what a step does is decided by the channels and the next event, and a run of `SETAX`
requests applies its writes one after the other. -/

namespace Sys2Proof.Machine

open Sys2Proof

/-! ### One step -/

/-- Settles O10: the step accepts what is presented, and performing what decodes is `exec`. -/
theorem stepRunsDecodedInstruction : Obligations.StepRunsDecodedInstruction := by
  intro s p rest i hin hdec
  rw [step_presented hin, perform_of_ok hdec]

/-- An instruction reads no field of the state but the channels, and passes the waiting events on. -/
theorem exec_decided_by_channels (i : Instr) (ch : Channels) :
    ∃ (ch' : Channels) (r : Response), ∀ inputs response,
      exec i ⟨ch, inputs, response⟩ = .next ⟨ch', inputs, some r⟩ := by
  cases i with
  | setax a d =>
    cases h : isNaN d with
    | true => exact ⟨ch, ⟨.nanInput, [], 0⟩, fun inputs response => execSetax_of_nan h a ⟨ch, inputs, response⟩⟩
    | false =>
      exact ⟨ch.write a (clamp d), ⟨.ok, [], 0⟩,
        fun inputs response => execSetax_of_not_nan h a ⟨ch, inputs, response⟩⟩
  | rdax a => exact ⟨ch, ⟨.ok, [], ch.read a⟩, fun inputs response => execRdax_eq a ⟨ch, inputs, response⟩⟩
  | bldrc =>
    exact ⟨ch, ⟨.ok, frame config config.idRcTiny (rcPayload config (rcFieldByte config ch)), 0⟩,
      fun inputs response => execBldrc_eq ⟨ch, inputs, response⟩⟩
  | bldcmd | bldsmp | cksum | setRawRcTiny | rcinit | arm | disarm | trimUp | trimDown | trimLeft | trimRight =>
    exact ⟨ch, (exec_of_framer (by nofun) (by nofun) (by nofun)).imp
      fun _ hr inputs response => hr ⟨ch, inputs, response⟩⟩

/-- A rejected request is answered `ILLEGAL_REQUEST` (60_exceptions.md R83), at every state. -/
theorem rejectPresented_of_ne {r : Reject} (hr : r ≠ .notNamedCommand) (s : State) :
    rejectPresented r s = .next { s with response := some ⟨.illegalRequest, [], 0⟩ } := by
  rcases rejectPresented_cases r s with ⟨-, hraise⟩ | ⟨hwire, -⟩
  · rw [hraise, raise_eq]
  · exact absurd hwire hr

/-- Settles O15: reset reads nothing, an instruction reads the channels alone, and whether something presented is
answered `ILLEGAL_REQUEST` or refused is decided by the reason it does not decode. -/
theorem laterEventsDoNotMatter : Obligations.LaterEventsDoNotMatter := by
  intro s e rest rest'
  cases e with
  | reset => exact .inl ⟨_, _, step_reset rfl, step_reset rfl, rfl, rfl, rfl, rfl⟩
  | present p =>
    rw [step_presented rfl, step_presented rfl]
    cases hdec : decode p with
    | ok i =>
      obtain ⟨ch, r, hexec⟩ := exec_decided_by_channels i s.ch
      rw [perform_of_ok hdec, perform_of_ok hdec]
      exact .inl ⟨_, _, hexec rest _, hexec rest' _, rfl, rfl, rfl, rfl⟩
    | error r =>
      rw [perform_of_error hdec, perform_of_error hdec]
      by_cases hr : r = .notNamedCommand
      · subst hr
        exact .inr ⟨_, rfl, rfl⟩
      · exact .inl ⟨_, _, rejectPresented_of_ne hr _, rejectPresented_of_ne hr _, rfl, rfl, rfl, rfl⟩

/-! ### Several steps -/

theorem run_succ_of_next {M : Host.Core} {s t : M.State} (h : M.step s = .next t) (k : Nat) :
    M.run (k + 1) s = M.run k t := by
  rw [Host.Core.run, h]

theorem run_succ_of_step {s t : State} (h : step s = .next t) (k : Nat) :
    Sys2Proof.core.run (k + 1) s = Sys2Proof.core.run k t :=
  run_succ_of_next (M := Sys2Proof.core) h k

theorem decode_setaxRequest (a : Axis) (d : Word64) : decode (.request (setaxRequest a d)) = .ok (.setax a d) := by
  obtain ⟨hsel, haxis⟩ := setax_word a
  refine decodeRequest_eq_ok_iff.2 ⟨.setax, hsel, rfl, ?_⟩
  rw [ReqOp.instr, setaxRequest, ReqOp.request, haxis, axisOf_axisNumber]

theorem step_setaxRequest {s : State} {a : Axis} {d : Word64} {rest : List HostEvent} (hd : isNaN d = false)
    (hin : s.inputs = .present (.request (setaxRequest a d)) :: rest) :
    step s = .next ⟨s.ch.write a (clamp d), rest, some ⟨.ok, [], 0⟩⟩ :=
  (stepRunsDecodedInstruction s _ rest _ hin (decode_setaxRequest a d)).trans (execSetax_of_not_nan hd a _)

/-- `BLDRC` frames the channels as they are when it is accepted (41_channel.md R80). -/
theorem step_bldrcRequest {s : State} {rest : List HostEvent}
    (hin : s.inputs = .present (.request ⟨0x30000000#32, 0, []⟩) :: rest) :
    step s = .next ⟨s.ch, rest, some ⟨.ok,
      frame config 0x96 [quantize config s.ch.roll, quantize config s.ch.pitch, quantize config s.ch.yaw,
        quantize config s.ch.throttle, auxpack config s.ch.aux1 s.ch.aux2 s.ch.aux3 s.ch.aux4], 0⟩⟩ :=
  (stepRunsDecodedInstruction s _ rest .bldrc hin rfl).trans (execBldrc_eq _)

/-- As many steps as there are `SETAX` requests leave the channels with all their writes applied in order; the run goes
on from there. -/
theorem run_setaxRequests (writes : List (Axis × Word64)) {s : State} {rest : List HostEvent} (k : Nat)
    (hnan : ∀ x ∈ writes, isNaN x.2 = false)
    (hin : s.inputs = writes.map (fun x => .present (.request (setaxRequest x.1 x.2))) ++ rest) :
    ∃ response, Sys2Proof.core.run (writes.length + k) s =
      Sys2Proof.core.run k ⟨writes.foldl (fun ch x => ch.write x.1 (clamp x.2)) s.ch, rest, response⟩ := by
  induction writes generalizing s with
  | nil =>
    obtain ⟨ch, inputs, response⟩ := s
    obtain rfl : inputs = rest := hin
    exact ⟨response, by rw [List.length_nil, Nat.zero_add, List.foldl_nil]⟩
  | cons x xs ih =>
    obtain ⟨hx, hxs⟩ := List.forall_mem_cons.1 hnan
    obtain ⟨response, hrun⟩ := ih (s := ⟨s.ch.write x.1 (clamp x.2), _, some ⟨.ok, [], 0⟩⟩) hxs rfl
    refine ⟨response, ?_⟩
    calc Sys2Proof.core.run ((x :: xs).length + k) s
      _ = Sys2Proof.core.run (xs.length + k + 1) s := by rw [List.length_cons, Nat.add_right_comm]
      _ = _ := run_succ_of_step (step_setaxRequest hx hin) _
      _ = _ := hrun

/-- Settles O43: the run applies the writes one by one, and the `BLDRC` step frames what they leave. -/
theorem snapshotSeesEveryEarlierWrite : Obligations.SnapshotSeesEveryEarlierWrite := by
  intro writes s rest hnan hin ch
  obtain ⟨response, hrun⟩ := run_setaxRequests writes 1 hnan hin
  exact hrun.trans (run_succ_of_step (step_bldrcRequest rfl) 0)

end Sys2Proof.Machine
end

section
/-! SUPPORT. Encoding and decoding are inverse to each other, on request triples and on wire frames. -/

namespace Sys2Proof.Machine

open Sys2Proof

/-! ### Decoding an encoding -/

theorem decode_rdaxRequest (a : Axis) (d : Word64) :
    decode (.request (ReqOp.rdax.request (axisBits a) d [])) = .ok (.rdax a) := by
  obtain ⟨hsel, haxis⟩ := rdax_word a
  refine decodeRequest_eq_ok_iff.2 ⟨.rdax, hsel, rfl, ?_⟩
  rw [ReqOp.instr, ReqOp.request, haxis, axisOf_axisNumber]

/-- A count that fits a field is read back from it. -/
theorem toNat_ofNat_of_lt {w n : Nat} (h : n < 2 ^ w) : (BitVec.ofNat w n).toNat = n := by
  rw [BitVec.toNat_ofNat, Nat.mod_eq_of_lt h]

theorem decode_encode_bldcmd (id : Byte) {p : List Byte} (hp : p.length ≤ maxIn) :
    decode (encode (.bldcmd id p)) = .ok (.bldcmd id p) := by
  obtain ⟨hsel, hid, hlen⟩ := bldcmd_word id p.length
  refine decodeRequest_eq_ok_iff.2 ⟨.bldcmd, hsel, ?_, ?_⟩
  · rw [ReqOp.inLength, ReqOp.request, hlen, toNat_ofNat_of_lt (Nat.lt_succ_of_le hp)]
  · rw [ReqOp.instr, ReqOp.request, hid]

theorem decode_encode_bldsmp (id : Byte) : decode (encode (.bldsmp id)) = .ok (.bldsmp id) := by
  obtain ⟨hsel, hid⟩ := bldsmp_word id
  refine decodeRequest_eq_ok_iff.2 ⟨.bldsmp, hsel, rfl, ?_⟩
  rw [ReqOp.instr, ReqOp.request, hid]

theorem decode_encode_cksum {wire : List Byte} (hw : wire.length ≤ maxIn) :
    decode (encode (.cksum wire)) = .ok (.cksum wire) := by
  obtain ⟨hsel, hlen⟩ := cksum_word wire.length
  refine decodeRequest_eq_ok_iff.2 ⟨.cksum, hsel, ?_, rfl⟩
  rw [ReqOp.inLength, ReqOp.request, hlen, toNat_ofNat_of_lt (Nat.lt_succ_of_le hw)]

/-- The frame of a simple command passes every check of its header, length and checksum: its id alone decides. -/
theorem namedCommand_simpleWire (c : Config) (id : Byte) : namedCommand c (simpleWire c id) = simpleCommand c id :=
  if_pos ⟨rfl, rfl, BitVec.zero_xor.symm⟩

theorem decode_command {wire : List Byte} {i : Instr} (h : namedCommand config wire = some i) :
    decode (.command wire) = .ok i := by rw [decode, h]

theorem decode_simpleWire {id : Byte} {i : Instr} (h : simpleCommand config id = some i) :
    decode (.command (simpleWire config id)) = .ok i :=
  decode_command ((namedCommand_simpleWire config id).trans h)

/-- The frame of an RC command passes every check, and each payload byte is read back from its place. -/
theorem namedCommand_rcWire (byteOf : RcField → Byte) :
    namedCommand config (rcWire config byteOf) =
      some (.setRawRcTiny (byteOf .roll) (byteOf .pitch) (byteOf .yaw) (byteOf .throttle) (byteOf .aux)) :=
  if_pos ⟨rfl, rfl, rfl, rfl⟩

/-- Settles O1: for a request the fields of the word read back, for a named command the checks of its frame pass. -/
theorem encodeThenDecode : Obligations.EncodeThenDecode := by
  intro i hwf
  cases i with
  | setax a d => exact decode_setaxRequest a d
  | rdax a => exact decode_rdaxRequest a 0
  | bldrc => rfl
  | bldcmd id p => exact decode_encode_bldcmd id (of_decide_eq_true hwf)
  | bldsmp id => exact decode_encode_bldsmp id
  | cksum wire => exact decode_encode_cksum (of_decide_eq_true hwf)
  | setRawRcTiny r p y t x => exact decode_command (namedCommand_rcWire (rcBytes r p y t x))
  | rcinit | arm | disarm | trimUp | trimDown | trimLeft | trimRight => exact decode_simpleWire rfl

/-- Settles O47: a line's one request is what `encode` gives for the instruction the line names. -/
theorem assembledLinesDecode : Obligations.AssembledLinesDecode := by
  have line {i : Instr} (hwf : i.wellFormed = true) : [decode (encode i)] = [.ok i] :=
    congrArg (fun decoded => [decoded]) (encodeThenDecode i hwf)
  exact ⟨fun a w => line (i := .setax a w) rfl, fun a => line (i := .rdax a) rfl, line (i := .bldrc) rfl,
    fun id p hp => line (i := .bldcmd id p) (decide_eq_true hp), fun id => line (i := .bldsmp id) rfl,
    fun wire hw => line (i := .cksum wire) (decide_eq_true hw)⟩

/-! ### Encoding what was decoded -/

theorem inLength_le (o : ReqOp) (w : Word32) : o.inLength w ≤ maxIn := by
  have hlen : (lenField w).toNat ≤ maxIn := Nat.le_of_lt_succ (lenField w).isLt
  cases o with
  | bldcmd | cksum => exact hlen
  | setax | rdax | bldrc | bldsmp => exact Nat.zero_le _

theorem instr_wellFormed {o : ReqOp} {q : Request} (hl : q.inp.length = o.inLength q.req) :
    (o.instr q).wellFormed = true := by
  have hle : q.inp.length ≤ maxIn := hl.trans_le (inLength_le o q.req)
  cases o with
  | bldcmd | cksum => exact decide_eq_true hle
  | setax | rdax | bldrc | bldsmp => rfl

/-- The encoding of a legal request's instruction is the request, with `D` kept by `SETAX` alone. -/
theorem encode_instr {o : ReqOp} {q : Request} (hs : o.selects q.req = true)
    (hl : q.inp.length = o.inLength q.req) :
    encode (o.instr q) = .request ⟨q.req, if o = .setax then q.d else 0, q.inp⟩ := by
  obtain ⟨w, d, inp⟩ := q
  -- it is enough that the encoder's request word is `w` and its `IN` is `inp`
  have request_eq {bits : Word32} (d' : Word64) (hbits : bits = w &&& ~~~ o.mask) :
      Presented.request (o.request bits d' inp) = .request ⟨w, d', inp⟩ := by
    rw [ReqOp.request, pattern_or_operands hs hbits]
  cases o with
  | setax =>
    obtain rfl : inp = [] := List.eq_nil_of_length_eq_zero hl
    exact request_eq d (axisBits_eq w)
  | rdax =>
    obtain rfl : inp = [] := List.eq_nil_of_length_eq_zero hl
    exact request_eq 0 (axisBits_eq w)
  | bldrc =>
    obtain rfl : inp = [] := List.eq_nil_of_length_eq_zero hl
    exact request_eq 0 BitVec.and_zero.symm
  | bldcmd => exact request_eq 0 (hl ▸ idBits_or_lenBits_eq w)
  | bldsmp =>
    obtain rfl : inp = [] := List.eq_nil_of_length_eq_zero hl
    exact request_eq 0 (idBits_eq w)
  | cksum => exact request_eq 0 (hl ▸ lenBits_eq w)

/-- A selected mnemonic is `SETAX` exactly when `OP` is 1. -/
theorem op_eq_one_iff {o : ReqOp} {w : Word32} (hs : o.selects w = true) :
    w.extractLsb' 28 4 = 1#4 ↔ o = .setax := by
  rw [op_of_selects hs]
  exact ⟨fun h => eq_of_op_eq (o' := .setax) h, fun h => h ▸ rfl⟩

/-- Settles O2: the mnemonic that selects the request gives its pattern, and the operands the rest of the word. -/
theorem decodedRequestReencodes : Obligations.DecodedRequestReencodes := by
  intro q i hdec
  obtain ⟨o, hs, hl, rfl⟩ := decodeRequest_eq_ok_iff.1 hdec
  refine ⟨instr_wellFormed hl, ?_⟩
  simp only [op_eq_one_iff hs]
  exact encode_instr hs hl

/-! ### What decoding depends on -/

/-- Settles O4: two mnemonics that select a word have its `OP`; and a request that does not decode, though it cannot be
one a mnemonic selects with its input length, is rejected as a request is. -/
theorem requestDecodingTotalAndUnambiguous : Obligations.RequestDecodingTotalAndUnambiguous := by
  refine ⟨fun w o o' hs hs' => eq_of_op_eq ((op_of_selects hs).symm.trans (op_of_selects hs')), fun q => ?_⟩
  cases hdec : decode (.request q) with
  | ok i =>
    obtain ⟨o, hs, hl, rfl⟩ := decodeRequest_eq_ok_iff.1 hdec
    exact .inl ⟨o, hs, hl, rfl⟩
  | error r =>
    refine .inr ⟨fun o hs hl => ?_, r, rfl, rejectPresented_of_ne (decodeRequest_error_ne hdec)⟩
    have hok : decode (.request q) = .ok (o.instr q) := decodeRequest_eq_ok_iff.2 ⟨o, hs, hl, rfl⟩
    exact nomatch hdec.symm.trans hok

theorem instr_ignores_data {o : ReqOp} (ho : o ≠ .setax) (q : Request) (d : Word64) :
    o.instr { q with d := d } = o.instr q := by
  cases o with
  | setax => exact absurd rfl ho
  | rdax | bldrc | bldcmd | bldsmp | cksum => rfl

theorem decode_ignores_data {q : Request} (hop : q.req.extractLsb' 28 4 ≠ 1#4) (d : Word64) :
    decode (.request { q with d := d }) = decode (.request q) := by
  rw [decode_request, decode_request, decodeRequest, decodeRequest]
  cases hsel : selectOp q.req with
  | none => rfl
  | some o =>
    have ho : o ≠ .setax := mt (op_eq_one_iff (selects_of_selectOp hsel)).2 hop
    dsimp only
    rw [instr_ignores_data ho]

/-- Settles O7: a legal request with `OP` 1 is selected by `SETAX`, which takes `D`; with another `OP` decoding does not
look at `D`. -/
theorem dataOperandReadBySetaxAlone : Obligations.DataOperandReadBySetaxAlone := by
  refine ⟨fun q hop hlegal => ?_, fun q d s hop => ?_⟩
  · obtain ⟨o, hs, hl⟩ := (not_illegal_iff_selected q).1 hlegal
    obtain rfl := (op_eq_one_iff hs).1 hop
    exact ⟨_, decodeRequest_eq_ok_iff.2 ⟨.setax, hs, hl, rfl⟩⟩
  · rw [step_present, step_present, perform, perform, decode_ignores_data hop]

/-! ### Listed words -/

/-- The words of a mnemonic whose `AXIS` field counts up are those the encoder gives for the axes in order. -/
theorem map_add_range_eq_map_axisBits (o : ReqOp) :
    (List.range 8).map (fun n => o.pattern + BitVec.ofNat 32 n) = axes.map (fun a => o.pattern ||| axisBits a) := by
  cases o <;> decide

/-- When a mnemonic reads an axis back from its word, its eight words decode to its instruction of the axes in order. -/
theorem map_axes_eq_map_decode {o : ReqOp} {d : Word64} {instr : Axis → Instr}
    (hdec : ∀ a, decode (.request (o.request (axisBits a) d [])) = .ok (instr a)) :
    axes.map (fun a => (Except.ok (instr a) : Except Reject Instr)) =
      (List.range 8).map (fun n => decode (.request ⟨o.pattern + BitVec.ofNat 32 n, d, []⟩)) := by
  have hwords := congrArg (List.map fun w => decode (.request ⟨w, d, []⟩)) (map_add_range_eq_map_axisBits o)
  rw [List.map_map, List.map_map] at hwords
  exact (List.map_congr_left fun a _ => (hdec a).symm).trans hwords.symm

/-- Settles O8: `SETAX` and `RDAX` both read the axis back from the words the encoder gives. -/
theorem axisFieldSelectsChannel : Obligations.AxisFieldSelectsChannel := fun d =>
  ⟨map_axes_eq_map_decode (o := .setax) fun a => decode_setaxRequest a d,
    map_axes_eq_map_decode (o := .rdax) fun a => decode_rdaxRequest a d, rfl⟩

/-- Settles O46: each pseudo-instruction's requests, computed. -/
theorem pseudoInstructionsExpand : Obligations.PseudoInstructionsExpand :=
  ⟨rfl, rfl, rfl, rfl, rfl, rfl, rfl, rfl⟩

end Sys2Proof.Machine
end

section
/-! SUPPORT. The bytes of a frame by index, and the end of a frame in a stream. -/

namespace Sys2Proof.Machine

open Sys2Proof

/-- A frame written out up to its payload (30_encoding.md R41). -/
theorem frame_eq_cons (c : Config) (id : Byte) (p : List Byte) :
    frame c id p =
      c.hdr0 :: c.hdr1 :: c.hdr2 :: BitVec.ofNat 8 p.length :: id :: (p ++ [xorfold (frameBody id p)]) := rfl

/-- The length byte holds the payload's length (30_encoding.md R43). -/
theorem lengthByte_toNat {p : List Byte} (hp : p.length ≤ 255) : (BitVec.ofNat 8 p.length).toNat = p.length :=
  toNat_ofNat_of_lt (Nat.lt_succ_of_le hp)

theorem frame_getElem?_payload (c : Config) (id : Byte) (p : List Byte) (k : Nat) :
    (frame c id p)[5 + k]? = (p ++ [xorfold (frameBody id p)])[k]? := by
  rw [frame_eq_cons, Nat.add_comm]
  rfl

/-- Bytes 3 .. 4+n of a frame are its body (30_encoding.md R47). -/
theorem take_drop_header_frame (c : Config) (id : Byte) (p : List Byte) :
    ((frame c id p).drop 3).take (2 + p.length) = frameBody id p := by
  rw [drop_header_frame, List.take_left' (frameBody_length id p)]

/-- Settles O30: the first five bytes stand written out, and the rest is the payload followed by the checksum. -/
theorem frameLayout : Obligations.FrameLayout := by
  intro id p hp f
  refine ⟨frame_length config id p, rfl, rfl, rfl, congrArg some (lengthByte_toNat hp), rfl, fun k hk => ?_, ?_⟩
  · rw [frame_getElem?_payload, List.getElem?_append_left hk]
  · rw [frame_getElem?_payload, take_drop_header_frame, List.getElem?_concat_length]

theorem frameLengthInStream_frame (c : Config) (id : Byte) {p : List Byte} (hp : p.length ≤ 255) (rest : List Byte) :
    frameLengthInStream (frame c id p ++ rest) = some (frame c id p).length := by
  rw [frame_length]
  exact congrArg (fun n => some (6 + n)) (lengthByte_toNat hp)

/-- Settles O33: the length a reader finds is the frame's own, so it splits the stream where the frame ends. -/
theorem frameDelimitsItself : Obligations.FrameDelimitsItself := fun id _ rest hp =>
  ⟨_, frameLengthInStream_frame config id hp rest, List.take_left, List.drop_left⟩

end Sys2Proof.Machine
end

section
/-! SUPPORT. The checksum: the fold of a permutation, and what folding a frame gives. -/

namespace Sys2Proof.Machine

open Sys2Proof

theorem xorfold_perm {s t : List Byte} (h : s.Perm t) : xorfold s = xorfold t := h.foldr_eq 0

/-- Settles O32: the fold is a right fold of an operation whose operands may change places. -/
theorem xorfoldIgnoresOrder : Obligations.XorfoldIgnoresOrder :=
  ⟨xorfold_nil, xorfold_cons, fun _ _ => xorfold_perm⟩

theorem xorfold_singleton (b : Byte) : xorfold [b] = b := BitVec.xor_zero

theorem frame_getLast? (c : Config) (id : Byte) (p : List Byte) :
    (frame c id p).getLast? = some (xorfold (frameBody id p)) := List.getLast?_concat

/-- Folding the checksum in with the bytes it covers gives 0 (40_codec.md R58). -/
theorem xorfold_drop_header_frame (c : Config) (id : Byte) (p : List Byte) :
    xorfold ((frame c id p).drop 3) = 0 := by
  rw [drop_header_frame, xorfold_append, xorfold_singleton, BitVec.xor_self]
  rfl

/-- Settles O31: the bytes from index 3 are the frame's body and then the body's fold. -/
theorem checksumLaw : Obligations.ChecksumLaw := by
  refine fun c id p => ⟨?_, xorfold_drop_header_frame c id p⟩
  rw [frame_getLast?, drop_header_frame, List.dropLast_concat]

end Sys2Proof.Machine
end

section
/-! SUPPORT. The named commands: which wire frames decode, and the frame each command builds. -/

namespace Sys2Proof.Machine

open Sys2Proof

/-! ### Decoding a wire frame -/

/-- Every frame a named command is read from: that of a simple command's id, or an RC frame of five payload bytes. -/
theorem namedCommand_cases {wire : List Byte} {i : Instr} (h : namedCommand config wire = some i) :
    (∃ id, wire = simpleWire config id ∧ simpleCommand config id = some i) ∨
      ∃ r p y t x, wire = rcWire config (rcBytes r p y t x) ∧ i = .setRawRcTiny r p y t x := by
  unfold namedCommand at h
  split at h
  case h_1 h0 h1 h2 n id ck =>
    split at h
    case isTrue hframe =>
      obtain ⟨hheader, rfl, rfl⟩ := hframe
      cases hheader
      exact .inl ⟨id, by simp [simpleWire], h⟩
    case isFalse => cases h
  case h_2 h0 h1 h2 n id r p y t x ck =>
    split at h
    case isTrue hframe =>
      obtain ⟨hheader, rfl, rfl, rfl⟩ := hframe
      cases hheader
      cases h
      exact .inr ⟨r, p, y, t, x, rfl, rfl⟩
    case isFalse => cases h
  case h_3 => cases h

theorem encode_of_simpleCommand {id : Byte} {i : Instr} (h : simpleCommand config id = some i) :
    encode i = .command (simpleWire config id) := by
  unfold simpleCommand at h
  split_ifs at h <;> (subst id; cases h; rfl)

/-- Settles O3: both kinds of frame a command is read from are what its encoding writes out. -/
theorem decodedCommandReencodes : Obligations.DecodedCommandReencodes := by
  intro wire i hdec
  rw [decode] at hdec
  split at hdec
  case h_1 j hcommand =>
    cases hdec
    obtain ⟨id, rfl, hid⟩ | ⟨r, p, y, t, x, rfl, rfl⟩ := namedCommand_cases hcommand
    · exact encode_of_simpleCommand hid
    · rfl
  case h_2 => cases hdec

/-- The only reason a wire frame does not decode. -/
theorem decode_command_error {wire : List Byte} {r : Reject} (h : decode (.command wire) = .error r) :
    r = .notNamedCommand := by
  rw [decode] at h
  split at h
  · cases h
  · cases h
    rfl

/-- Settles O29: bytes that decoded would be the encoding of what they decode to, and bytes that do not are refused. -/
theorem wireOfNoCommandIsRefused : Obligations.WireOfNoCommandIsRefused := by
  intro wire s hnone
  rw [step_present]
  cases hdec : decode (.command wire) with
  | ok i => exact absurd (decodedCommandReencodes wire i hdec) (hnone i)
  | error r =>
    obtain rfl := decode_command_error hdec
    rw [perform_of_error hdec]
    rfl

/-! ### The frames of the commands -/

/-- The frame of an id with no payload, as an answer (40_codec.md R60). -/
theorem emitFrame_nil (id : Byte) (s : State) :
    emitFrame id [] s = .next { s with response := some ⟨.ok, [0x24, 0x4D, 0x3C, 0x00, id, id], 0⟩ } := by
  rw [emitFrame_eq, frame_nil]
  rfl

/-- Settles O27: a simple command and the `BLDSMP` of its id both build the frame of that id with no payload. -/
theorem simpleCommandsBuildTheirFrames : Obligations.SimpleCommandsBuildTheirFrames := by
  intro s answers
  have builds (id : Byte) : emitFrame id [] s = answers id := emitFrame_nil id s
  exact ⟨⟨builds 0x96, builds 0x96⟩, ⟨builds 0x97, builds 0x97⟩, ⟨builds 0x98, builds 0x98⟩,
    ⟨builds 0x99, builds 0x99⟩, ⟨builds 0x9A, builds 0x9A⟩, ⟨builds 0x9B, builds 0x9B⟩, ⟨builds 0x9C, builds 0x9C⟩⟩

/-- The checksum of an RC frame, folded from the left (40_codec.md R62). -/
theorem xorfold_rcBody (id r p y t x : Byte) :
    xorfold (frameBody id [r, p, y, t, x]) = 0x05 ^^^ id ^^^ r ^^^ p ^^^ y ^^^ t ^^^ x := by
  simp [frameBody, BitVec.xor_assoc]

/-- The RC frame of five payload bytes, as an answer (40_codec.md R62). -/
theorem execSetRawRcTiny_eq (r p y t x : Byte) (s : State) :
    execSetRawRcTiny r p y t x s = .next { s with
      response := some ⟨.ok, [0x24, 0x4D, 0x3C, 0x05, 0x96, r, p, y, t, x,
        0x05 ^^^ 0x96 ^^^ r ^^^ p ^^^ y ^^^ t ^^^ x], 0⟩ } := by
  rw [execSetRawRcTiny, rcPayload_config, emitFrame_eq, frame_eq_cons, ← xorfold_rcBody]
  rfl

/-- `BLDRC` is the RC command of the bytes it computes from the channels (40_codec.md R62, 30_encoding.md R50). -/
theorem execBldrc_eq_execSetRawRcTiny (s : State) :
    execBldrc s = execSetRawRcTiny (quantize config s.ch.roll) (quantize config s.ch.pitch) (quantize config s.ch.yaw)
      (quantize config s.ch.throttle) (auxpack config s.ch.aux1 s.ch.aux2 s.ch.aux3 s.ch.aux4) s := by
  rw [execBldrc, execSetRawRcTiny, rcPayload_config, rcPayload_config]
  rfl

/-- Settles O28: the RC frame is written out, and `BLDRC` builds it of the channels' bytes in every state. -/
theorem rcFrameCommandBuildsItsFrame : Obligations.RcFrameCommandBuildsItsFrame :=
  ⟨execSetRawRcTiny_eq, fun s _ => execBldrc_eq_execSetRawRcTiny s, execSetRawRcTiny_eq 0x7D 0x7D 0x7D 0x7D 0x55⟩

end Sys2Proof.Machine
end

section
/-! SUPPORT. The framer's requests: a request with a mnemonic's `OP` that the mnemonic does not take is illegal;
`BLDCMD`, `BLDSMP` and `CKSUM`. -/

namespace Sys2Proof.Machine

open Sys2Proof

/-- Settles O34: an instruction of the framer gives one answer at every state. -/
theorem framerDependsOnTheRequestAlone : Obligations.FramerDependsOnTheRequestAlone := by
  intro i s t hsetax hrdax hbldrc
  obtain ⟨r, hr⟩ := exec_of_framer hsetax hrdax hbldrc
  exact ⟨r, hr s, hr t⟩

/-- A request with the `OP` of a mnemonic is answered `ILLEGAL_REQUEST` when the mnemonic does not select its word, or
does and `IN` has not the length asked for (30_encoding.md R35, R39). -/
theorem step_malformed {o : ReqOp} {q : Request} (hop : q.req.extractLsb' 28 4 = o.pattern.extractLsb' 28 4)
    (hbad : o.selects q.req = true → q.inp.length ≠ o.inLength q.req) (s : State) :
    step (s.present (.request q)) = .next { s with response := some ⟨.illegalRequest, [], 0⟩ } := by
  cases hdec : decode (.request q) with
  | ok i =>
    obtain ⟨o', hs, hl, -⟩ := decodeRequest_eq_ok_iff.1 hdec
    obtain rfl : o' = o := eq_of_op_eq ((op_of_selects hs).symm.trans hop)
    exact absurd hl (hbad hs)
  | error r => rw [step_present, perform_of_error hdec, rejectPresented_of_ne (decodeRequest_error_ne hdec)]

/-- A request word under a mnemonic's mask, with the input length it asks for, decodes to the mnemonic's instruction. -/
theorem decode_of_mask {o : ReqOp} {q : Request} (hmask : q.req &&& o.mask = o.pattern)
    (hl : q.inp.length = o.inLength q.req) : decode (.request q) = .ok (o.instr q) :=
  decodeRequest_eq_ok_iff.2 ⟨o, beq_iff_eq.2 hmask, hl, rfl⟩

/-! ### BLDCMD -/

/-- A payload byte equal to the id cancels it in the checksum (40_codec.md R59). -/
theorem frame_config_self (id : Byte) : frame config id [id] = [0x24, 0x4D, 0x3C, 0x01, id, id, 0x01] := by
  have hfold : xorfold (frameBody id [id]) = 0x01 := by simp [frameBody]
  rw [frame_eq_cons, hfold]
  rfl

/-- Settles O24: the parts of R59, from decoding, from what `BLDCMD` answers at each length, and from the frame. -/
theorem bldcmdFramesThePayload : Obligations.BldcmdFramesThePayload := by
  refine ⟨fun q hmask hl => decode_of_mask (o := .bldcmd) hmask hl, fun q s hop hbad => ?_,
    fun id p s hp => execBldcmd_of_le hp id s, fun id p s hp => execBldcmd_of_gt hp id s,
    fun id s => execBldcmd_of_le (Nat.zero_le _) id s, fun id p hp => by rw [frame_length, hp],
    frame_config_self, rfl, rfl⟩
  refine step_malformed (o := .bldcmd) hop (fun hsel => ?_) s
  obtain ⟨-, hrsv⟩ := (selects_bldcmd_iff _).1 hsel
  exact hbad.resolve_left (not_not_intro hrsv)

/-! ### BLDSMP -/

/-- Settles O25: the parts of R60, from decoding and from the frame with no payload. -/
theorem bldsmpFramesTheId : Obligations.BldsmpFramesTheId := by
  refine ⟨fun q hmask hin => decode_of_mask (o := .bldsmp) hmask (congrArg List.length hin), fun q s hop hbad => ?_,
    emitFrame_nil⟩
  refine step_malformed (o := .bldsmp) hop (fun hsel => ?_) s
  obtain ⟨-, hrsv, hlen⟩ := (selects_bldsmp_iff _).1 hsel
  have hin : q.inp ≠ [] := (hbad.resolve_left (not_not_intro hrsv)).resolve_left (not_not_intro hlen)
  exact mt List.eq_nil_of_length_eq_zero hin

/-! ### CKSUM -/

/-- The header bytes and the last byte do not matter to `CKSUM` (40_codec.md R61). -/
theorem checksummedPart_append (h0 h1 h2 last : Byte) (body : List Byte) :
    checksummedPart ([h0, h1, h2] ++ body ++ [last]) = body := List.dropLast_concat

theorem execCksum_append (h0 h1 h2 last : Byte) {body : List Byte} (hlow : 2 ≤ body.length)
    (hhigh : body.length ≤ 257) (s : State) :
    execCksum ([h0, h1, h2] ++ body ++ [last]) s =
      .next { s with response := some ⟨.ok, [], (xorfold body).setWidth 64⟩ } := by
  have hl : ([h0, h1, h2] ++ body ++ [last]).length = body.length + 4 := by simp
  rw [execCksum_of_length (by omega) (by omega), checksummedPart_append]

/-- `CKSUM` of a frame the block builds gives the frame's checksum. -/
theorem execCksum_frame (id : Byte) {p : List Byte} (hp : p.length ≤ 255) (s : State) :
    execCksum (frame config id p) s =
      .next { s with response := some ⟨.ok, [], (xorfold (frameBody id p)).setWidth 64⟩ } :=
  execCksum_append _ _ _ _ (by rw [frameBody_length]; omega) (by rw [frameBody_length]; omega) s

/-- Settles O26: the parts of R61, from decoding and from what `CKSUM` answers at each length. -/
theorem cksumFoldsTheFrame : Obligations.CksumFoldsTheFrame := by
  refine ⟨fun q hmask hl => decode_of_mask (o := .cksum) hmask hl, fun q s hop hbad => ?_,
    fun h0 h1 h2 last body s hlow hhigh => execCksum_append h0 h1 h2 last hlow hhigh s,
    fun wire s hl => execCksum_of_bad_length hl s,
    fun id p s hp => ⟨_, frame_getLast? config id p, execCksum_frame id hp s⟩,
    execCksum_frame 0x96 (p := [0x7D, 0x7D, 0x7D, 0x7D, 0x55]) (by decide)⟩
  refine step_malformed (o := .cksum) hop (fun hsel => ?_) s
  obtain ⟨-, hrsv⟩ := (selects_cksum_iff _).1 hsel
  exact hbad.resolve_left (not_not_intro hrsv)

end Sys2Proof.Machine
end

section
/-! SUPPORT. `clamp` by the value of its operand: its three ranges, its bounds and its fixed points. -/

namespace Sys2Proof.Machine

open Sys2Proof

theorem lt_negOne_iff (w : Word64) : (f64 w).lt (f64 negOne) ↔ valueOf w < -1 := by
  rw [← valueOf_negOne, valueOf_lt_iff]

theorem posOne_lt_iff (w : Word64) : (f64 posOne).lt (f64 w) ↔ 1 < valueOf w := by
  rw [← valueOf_posOne, valueOf_lt_iff]

theorem clamp_of_lt_neg_one {w : Word64} (h : valueOf w < -1) : clamp w = negOne :=
  if_pos ((lt_negOne_iff w).2 h)

theorem clamp_of_one_lt {w : Word64} (h : 1 < valueOf w) : clamp w = posOne := by
  have hlow : ¬ valueOf w < -1 := by linarith
  rw [clamp, if_neg (mt (lt_negOne_iff w).1 hlow), if_pos ((posOne_lt_iff w).2 h)]

theorem clamp_of_mem {w : Word64} (hlow : -1 ≤ valueOf w) (hhigh : valueOf w ≤ 1) : clamp w = w := by
  rw [clamp, if_neg (mt (lt_negOne_iff w).1 hlow.not_gt), if_neg (mt (posOne_lt_iff w).1 hhigh.not_gt)]

theorem valueOf_clamp_mem (w : Word64) : -1 ≤ valueOf (clamp w) ∧ valueOf (clamp w) ≤ 1 := by
  rw [← valueOf_negOne, ← valueOf_posOne, valueOf_le_iff, valueOf_le_iff, f64_negOne, f64_posOne]
  exact clamp_bounds w

theorem clamp_clamp (w : Word64) : clamp (clamp w) = clamp w := by
  obtain ⟨hlow, hhigh⟩ := valueOf_clamp_mem w
  exact clamp_of_mem hlow hhigh

/-- Settles O35: by the operand's range; the corner cases are computed. -/
theorem clampRule : Obligations.ClampRule := by
  refine ⟨fun w hw => ?_, by decide +kernel⟩
  obtain ⟨hlow, hhigh⟩ := valueOf_clamp_mem w
  exact ⟨clamp_of_lt_neg_one, clamp_of_one_lt, clamp_of_mem, isNaN_clamp hw, hlow, hhigh, clamp_clamp w⟩

/-- A subnormal (or a zero) lies between the least and the greatest subnormal. -/
theorem valueOf_mem_of_subnormal {w : Word64} (h : expField w = 0) :
    valueOf 0x800FFFFFFFFFFFFF#64 ≤ valueOf w ∧ valueOf w ≤ valueOf 0x000FFFFFFFFFFFFF#64 := by
  have hfrac := fracField_lt w
  have hmost : (f64 0x000FFFFFFFFFFFFF#64).toInt = 2 ^ 52 - 1 := by decide
  have hleast : (f64 0x800FFFFFFFFFFFFF#64).toInt = -(2 ^ 52 - 1) := by decide
  have hw : (f64 w).mag = fracField w := if_pos h
  rw [valueOf_le_iff, valueOf_le_iff, hmost, hleast, F64.toInt, hw]
  split_ifs <;> omega

theorem isNaN_of_subnormal {w : Word64} (h : expField w = 0) : isNaN w = false := by
  rw [isNaN, h]
  rfl

theorem clamp_of_subnormal {w : Word64} (h : expField w = 0) : clamp w = w := by
  obtain ⟨hlow, hhigh⟩ := valueOf_mem_of_subnormal h
  have hleast : -1 ≤ valueOf 0x800FFFFFFFFFFFFF#64 := by
    rw [← valueOf_negOne, valueOf_le_iff]
    decide +kernel
  have hmost : valueOf 0x000FFFFFFFFFFFFF#64 ≤ 1 := by
    rw [← valueOf_posOne, valueOf_le_iff]
    decide +kernel
  exact clamp_of_mem (hleast.trans hlow) (hhigh.trans hmost)

end Sys2Proof.Machine
end

section
/-! SUPPORT. The real value of what the binary64 operations give: `fmul` and `fadd` round the exact product and the exact
sum, and `floorDiv` is the floor of the real quotient. -/

namespace Sys2Proof.Machine

open Sys2Proof

theorem F64.toRat_ofNat (k : Nat) : (F64.ofNat k).toRat = k := by
  have hU : (unitsPerOne : ℚ) ≠ 0 := by exact_mod_cast unitsPerOne_pos.ne'
  rw [F64.toRat, F64.toInt_ofNat, Int.cast_natCast, Nat.cast_mul, mul_div_cancel_right₀ _ hU]

theorem F64.toRat_eq_sign_mul (a : F64) : a.toRat = (if a.neg then -1 else 1) * (a.mag : ℚ) / unitsPerOne := by
  rw [F64.toRat, F64.toInt]
  split_ifs <;> simp

theorem F64.abs_toRat (a : F64) : |a.toRat| = (a.mag : ℚ) / unitsPerOne := by
  have hmag : |(a.toInt : ℚ)| = a.mag := by
    rw [F64.toInt]
    split_ifs <;> simp
  rw [F64.toRat, abs_div, hmag, Nat.abs_cast]

theorem F64.abs_toRat_le {a : F64} {k : Nat} (h : a.mag ≤ k * unitsPerOne) : |a.toRat| ≤ k := by
  have hU : (0 : ℚ) < unitsPerOne := by exact_mod_cast unitsPerOne_pos
  rw [F64.abs_toRat, div_le_iff₀ hU]
  exact_mod_cast h

/-- `floorDiv` of a magnitude is the floor over the rationals. -/
theorem floor_abs_toRat_div (a : F64) (k : Nat) : ⌊|a.toRat| / k⌋ = (floorDiv (fabs a) k : ℤ) := by
  rw [F64.abs_toRat, div_div, mul_comm, ← Nat.cast_mul, floorDiv, fabs]
  exact Rat.floor_natCast_div_natCast _ _

theorem valueOf_toPattern {a : F64} (hd : ulp a.mag ∣ a.mag) (hf : a.mag < 2 ^ 2098) :
    valueOf (toPattern a) = a.toRat := by
  rw [valueOf, (f64_toPattern hd hf).1]

theorem isRne_fmul {a b : F64} (hf : (fmul a b).mag < 2 ^ 2098) :
    IsRne (a.toRat * b.toRat) (toPattern (fmul a b)) := by
  have hsign : (if xor a.neg b.neg then -1 else 1 : ℚ) =
      (if a.neg then -1 else 1) * (if b.neg then -1 else 1) := by
    cases a.neg <;> cases b.neg <;> simp
  have hx : a.toRat * b.toRat =
      (if xor a.neg b.neg then -1 else 1) * ((a.mag * b.mag : Nat) : ℚ) / (unitsPerOne * unitsPerOne) := by
    rw [a.toRat_eq_sign_mul, b.toRat_eq_sign_mul, hsign, Nat.cast_mul]
    ring
  rw [hx]
  exact isRne_toPattern _ _ unitsPerOne_pos hf

/-- The sign of a sum is that of the exact sum; where that is 0 either sign will do. -/
theorem fadd_sign_mul_natAbs (a b : F64) :
    (if (fadd a b).neg then -1 else 1) * ((a.toInt + b.toInt).natAbs : ℚ) = a.toInt + b.toInt := by
  rw [Nat.cast_natAbs, Int.cast_abs, Int.cast_add, fadd]
  dsimp only
  rcases lt_trichotomy (a.toInt + b.toInt) 0 with h | h | h
  · have hq : (a.toInt + b.toInt : ℚ) < 0 := by exact_mod_cast h
    simp [h, h.ne, abs_of_neg hq]
  · have hq : (a.toInt + b.toInt : ℚ) = 0 := by exact_mod_cast h
    simp [hq]
  · have hq : (0 : ℚ) < a.toInt + b.toInt := by exact_mod_cast h
    simp [h.ne', h.not_gt, abs_of_pos hq]

theorem isRne_fadd {a b : F64} (hf : (fadd a b).mag < 2 ^ 2098) :
    IsRne (a.toRat + b.toRat) (toPattern (fadd a b)) := by
  have hx : a.toRat + b.toRat =
      (if (fadd a b).neg then -1 else 1) * ((a.toInt + b.toInt).natAbs : ℚ) / ((1 : Nat) * unitsPerOne) := by
    rw [fadd_sign_mul_natAbs, F64.toRat, F64.toRat, Nat.cast_one, one_mul, add_div]
  rw [hx]
  exact isRne_toPattern _ _ Nat.one_pos hf

end Sys2Proof.Machine
end

section
/-! SUPPORT. `quantize`: the bounds of its two rounded operations, its order, and its byte as a floor (41_channel.md R72 to
R74). -/

namespace Sys2Proof.Machine

open Sys2Proof

/-! ### The two rounded operations -/

theorem mag_clamp_le (w : Word64) : (f64 (clamp w)).mag ≤ unitsPerOne := by
  obtain ⟨hlow, hhigh⟩ := clamp_bounds w
  rw [F64.toInt] at hlow hhigh
  split_ifs at hlow hhigh <;> omega

/-- `500 * 1` is exact, and rounding keeps order (41_channel.md R73). -/
theorem quantizeScaled_mag_le (w : Word64) : (quantizeScaled config w).mag ≤ 500 * unitsPerOne := by
  have hexact : rneMag (500 * unitsPerOne * unitsPerOne) unitsPerOne = 500 * unitsPerOne :=
    rneMag_exact unitsPerOne_pos (by decide +kernel)
  exact (rneMag_mono unitsPerOne_pos (Nat.mul_le_mul_left _ (mag_clamp_le w))).trans_eq hexact

theorem quantizeScaled_mag_finite (w : Word64) : (quantizeScaled config w).mag < 2 ^ 2098 := by
  have hfinite : 500 * unitsPerOne < 2 ^ 2098 := by decide +kernel
  exact (quantizeScaled_mag_le w).trans_lt hfinite

theorem quantizeScaled_toInt_mem (w : Word64) :
    -(500 * unitsPerOne : Int) ≤ (quantizeScaled config w).toInt ∧
      (quantizeScaled config w).toInt ≤ 500 * unitsPerOne := by
  have hmag := quantizeScaled_mag_le w
  rw [F64.toInt]
  split_ifs <;> omega

/-- The exact sum of 41_channel.md R72, `500 + t1`, in units. -/
def quantizeSum (w : Word64) : Int := 500 * unitsPerOne + (quantizeScaled config w).toInt

theorem quantizeSum_mem (w : Word64) : 0 ≤ quantizeSum w ∧ quantizeSum w ≤ 1000 * unitsPerOne := by
  obtain ⟨hlow, hhigh⟩ := quantizeScaled_toInt_mem w
  rw [quantizeSum]
  omega

theorem quantizeShifted_mag (w : Word64) :
    (quantizeShifted config w).mag = rneMag (quantizeSum w).natAbs 1 := rfl

/-- `500 + 500` is exact, and rounding keeps order (41_channel.md R73). -/
theorem quantizeShifted_mag_le (w : Word64) : (quantizeShifted config w).mag ≤ 1000 * unitsPerOne := by
  have hexact : rneMag (1000 * unitsPerOne * 1) 1 = 1000 * unitsPerOne :=
    rneMag_exact Nat.one_pos (by decide +kernel)
  have hsum : (quantizeSum w).natAbs ≤ 1000 * unitsPerOne * 1 := by
    obtain ⟨hlow, hhigh⟩ := quantizeSum_mem w
    omega
  rw [quantizeShifted_mag]
  exact (rneMag_mono Nat.one_pos hsum).trans_eq hexact

theorem quantizeShifted_mag_finite (w : Word64) : (quantizeShifted config w).mag < 2 ^ 2098 := by
  have hfinite : 1000 * unitsPerOne < 2 ^ 2098 := by decide +kernel
  exact (quantizeShifted_mag_le w).trans_lt hfinite

theorem quantizeShifted_toRat_nonneg (w : Word64) : 0 ≤ (quantizeShifted config w).toRat := by
  have htoInt : (quantizeShifted config w).toInt = rneMag (quantizeSum w).natAbs 1 :=
    fadd_toInt_of_nonneg (a := F64.ofNat config.qOffset) (quantizeSum_mem w).1
  have hint : 0 ≤ (quantizeShifted config w).toInt := htoInt ▸ Int.natCast_nonneg _
  exact div_nonneg (Int.cast_nonneg hint) (Nat.cast_nonneg _)

/-! ### The byte -/

theorem quantize_floorDiv_le (w : Word64) : floorDiv (fabs (quantizeShifted config w)) 4 ≤ 250 := by
  have hU := unitsPerOne_pos
  have hmag : (fabs (quantizeShifted config w)).mag ≤ 1000 * unitsPerOne := quantizeShifted_mag_le w
  refine Nat.le_of_lt_succ ((Nat.div_lt_iff_lt_mul (Nat.mul_pos four_pos hU)).2 ?_)
  omega

theorem quantize_toNat (w : Word64) :
    (quantize config w).toNat = floorDiv (fabs (quantizeShifted config w)) 4 :=
  toNat_ofNat_of_lt ((quantize_floorDiv_le w).trans_lt (by decide))

theorem quantize_le (w : Word64) : (quantize config w).toNat ≤ 250 :=
  (quantize_toNat w).trans_le (quantize_floorDiv_le w)

/-- Each operation of the formula keeps order: the clamp, both roundings, and the floor. -/
theorem quantize_mono {w w' : Word64} (h : valueOf w ≤ valueOf w') :
    (quantize config w).toNat ≤ (quantize config w').toNat := by
  have hscaled : (quantizeScaled config w).toInt ≤ (quantizeScaled config w').toInt :=
    fmul_ofNat_mono 500 (clamp_mono ((valueOf_le_iff w w').1 h))
  have hsum : (quantizeSum w).natAbs ≤ (quantizeSum w').natAbs := by
    have hle : quantizeSum w ≤ quantizeSum w' := Int.add_le_add_left hscaled _
    have hnonneg := (quantizeSum_mem w).1
    omega
  have hmag : (quantizeShifted config w).mag ≤ (quantizeShifted config w').mag := by
    rw [quantizeShifted_mag, quantizeShifted_mag]
    exact rneMag_mono Nat.one_pos hsum
  rw [quantize_toNat, quantize_toNat]
  exact Nat.div_le_div_right hmag

/-- Settles O37: the bound and the order hold of every pattern. -/
theorem quantizeMonotoneAndBounded : Obligations.QuantizeMonotoneAndBounded :=
  ⟨fun w _ => quantize_le w, fun _ _ _ _ h => quantize_mono h⟩

/-- Every subnormal lies between two that give 125. -/
theorem quantize_of_subnormal {w : Word64} (h : expField w = 0) : quantize config w = 125 := by
  obtain ⟨hlow, hhigh⟩ := valueOf_mem_of_subnormal h
  have hleast : (quantize config 0x800FFFFFFFFFFFFF#64).toNat = 125 := by decide +kernel
  have hmost : (quantize config 0x000FFFFFFFFFFFFF#64).toNat = 125 := by decide +kernel
  exact BitVec.eq_of_toNat_eq
    (le_antisymm ((quantize_mono hhigh).trans_eq hmost) (hleast.symm.trans_le (quantize_mono hlow)))

/-- `w` is the pattern of +0.0 or of −0.0 (41_channel.md R81). -/
abbrev IsZero (w : Word64) : Prop := w = 0x0000000000000000#64 ∨ w = 0x8000000000000000#64

theorem quantize_of_zero {w : Word64} (h : IsZero w) : quantize config w = 0x7D := by
  rcases h with rfl | rfl
  · exact quantize_of_subnormal rfl
  · exact quantize_of_subnormal rfl

theorem quantize_clamp (c : Config) (w : Word64) : quantize c (clamp w) = quantize c w := by
  rw [quantize, quantize, quantizeShifted, quantizeShifted, quantizeScaled, quantizeScaled, clamp_clamp]

theorem quantize_negOne : quantize config negOne = 0 := by decide +kernel

theorem quantize_posOne : quantize config posOne = 250 := by decide +kernel

/-- Settles O38: the byte is that of the clamped pattern, which beyond the range is -1 or 1. -/
theorem quantizeClampsFirst : Obligations.QuantizeClampsFirst := by
  refine fun w _ => ⟨(quantize_clamp config w).symm, fun h => ?_, fun h => ?_⟩
  · rw [← quantize_clamp, clamp_of_lt_neg_one h, quantize_negOne]
  · rw [← quantize_clamp, clamp_of_one_lt h, quantize_posOne]

/-! ### The formula over the rationals -/

theorem isRne_quantizeScaled (w : Word64) :
    IsRne (500 * valueOf (clamp w)) (toPattern (quantizeScaled config w)) := by
  have hrne := isRne_fmul (quantizeScaled_mag_finite w)
  rwa [F64.toRat_ofNat] at hrne

theorem valueOf_quantizeScaled (w : Word64) :
    valueOf (toPattern (quantizeScaled config w)) = (quantizeScaled config w).toRat :=
  valueOf_toPattern (rneMag_ulp_dvd unitsPerOne_pos _) (quantizeScaled_mag_finite w)

theorem isRne_quantizeShifted (w : Word64) :
    IsRne (500 + (quantizeScaled config w).toRat) (toPattern (quantizeShifted config w)) := by
  have hrne := isRne_fadd (quantizeShifted_mag_finite w)
  rwa [F64.toRat_ofNat] at hrne

theorem valueOf_quantizeShifted (w : Word64) :
    valueOf (toPattern (quantizeShifted config w)) = (quantizeShifted config w).toRat :=
  valueOf_toPattern (rneMag_ulp_dvd Nat.one_pos _) (quantizeShifted_mag_finite w)

/-- Settles O36: the two rounded patterns are those of the model's product and sum; subnormals by order; the corner cases are
computed. -/
theorem quantizeRoundsStepByStep : Obligations.QuantizeRoundsStepByStep := by
  refine ⟨fun w _ => ⟨toPattern (quantizeScaled config w), toPattern (quantizeShifted config w), ?_⟩,
    fun w => quantize_of_subnormal, quantize_negOne, quantize_posOne, ?_⟩
  · rw [valueOf_quantizeScaled, valueOf_quantizeShifted, quantize_toNat]
    obtain ⟨hlow, hhigh⟩ := abs_le.1 (F64.abs_toRat_le (quantizeScaled_mag_le w))
    obtain ⟨-, hle⟩ := abs_le.1 (F64.abs_toRat_le (quantizeShifted_mag_le w))
    exact ⟨isRne_quantizeScaled w, hlow, hhigh, isRne_quantizeShifted w, quantizeShifted_toRat_nonneg w, hle,
      (floor_abs_toRat_div _ 4).symm, quantize_floorDiv_le w⟩
  · decide +kernel

end Sys2Proof.Machine
end

section
/-! SUPPORT. The aux codes: the three ranges, and the packed byte as the four codes side by side (41_channel.md R75,
R76). -/

namespace Sys2Proof.Machine

open Sys2Proof

theorem auxcode_of_lt_low {w : Word64} (h : valueOf w < valueOf config.auxTLo) : auxcode config w = 0b00#2 :=
  if_pos ((valueOf_lt_iff _ _).1 h)

theorem auxcode_of_mid {w : Word64} (hlow : valueOf config.auxTLo ≤ valueOf w)
    (hhigh : valueOf w < valueOf config.auxTHi) : auxcode config w = 0b01#2 := by
  rw [auxcode, if_neg (mt (valueOf_lt_iff _ _).2 hlow.not_gt), if_pos ((valueOf_lt_iff _ _).1 hhigh)]
  rfl

theorem auxcode_of_high {w : Word64} (h : valueOf config.auxTHi ≤ valueOf w) : auxcode config w = 0b10#2 := by
  have hlow : valueOf config.auxTLo < valueOf config.auxTHi := by
    rw [valueOf_lt_iff]
    decide +kernel
  rw [auxcode, if_neg (mt (valueOf_lt_iff _ _).2 (hlow.le.trans h).not_gt), if_neg (mt (valueOf_lt_iff _ _).2 h.not_gt)]
  rfl

/-- Both thresholds lie inside (-1, 1), so clamping moves no value across one. -/
theorem auxcode_clamp (w : Word64) : auxcode config (clamp w) = auxcode config w := by
  have hlow : -1 < valueOf config.auxTLo := by
    rw [← valueOf_negOne, valueOf_lt_iff]
    decide +kernel
  have hhigh : valueOf config.auxTHi < 1 := by
    rw [← valueOf_posOne, valueOf_lt_iff]
    decide +kernel
  rcases lt_or_ge (valueOf w) (-1) with h | hge
  · rw [clamp_of_lt_neg_one h, auxcode_of_lt_low (h.trans hlow), auxcode_of_lt_low (valueOf_negOne.trans_lt hlow)]
  · rcases lt_or_ge 1 (valueOf w) with h | hle
    · rw [clamp_of_one_lt h, auxcode_of_high (hhigh.trans h).le, auxcode_of_high (hhigh.le.trans_eq valueOf_posOne.symm)]
    · rw [clamp_of_mem hge hle]

/-- Settles O39: the three ranges, and the corner cases computed. -/
theorem auxcodeByThresholds : Obligations.AuxcodeByThresholds := by
  refine ⟨fun w _ => ⟨auxcode_of_lt_low, auxcode_of_mid, auxcode_of_high, auxcode_clamp w⟩, ?_⟩
  decide +kernel

/-- The four codes stand side by side in the byte. -/
theorem auxpack_eq_append (c : Config) (w4 w5 w6 w7 : Word64) :
    auxpack c w4 w5 w6 w7 = auxcode c w4 ++ auxcode c w5 ++ auxcode c w6 ++ auxcode c w7 := by
  rw [auxpack, ← BitVec.setWidth_eq (x := auxcode c w4 ++ auxcode c w5 ++ auxcode c w6 ++ auxcode c w7),
    BitVec.setWidth_append_append_append_eq_shiftLeft_setWidth_or]

theorem auxcode_cases (w : Word64) :
    auxcode config w = 0b00#2 ∨ auxcode config w = 0b01#2 ∨ auxcode config w = 0b10#2 := by
  unfold auxcode
  split_ifs
  · exact .inl rfl
  · exact .inr (.inl rfl)
  · exact .inr (.inr rfl)

/-- Each of four two-bit fields side by side is read back from its place. -/
theorem extractLsb'_four_fields (b3 b2 b1 b0 : BitVec 2) :
    (b3 ++ b2 ++ b1 ++ b0).extractLsb' 6 2 = b3 ∧ (b3 ++ b2 ++ b1 ++ b0).extractLsb' 4 2 = b2 ∧
      (b3 ++ b2 ++ b1 ++ b0).extractLsb' 2 2 = b1 ∧ (b3 ++ b2 ++ b1 ++ b0).extractLsb' 0 2 = b0 := by
  -- skipping the two fields on the right leaves `b3 ++ b2`
  have skip {start : Nat} (h : 4 ≤ start) :
      (b3 ++ b2 ++ b1 ++ b0).extractLsb' start 2 = (b3 ++ b2).extractLsb' (start - 2 - 2) 2 :=
    (BitVec.extractLsb'_append_eq_of_le (by omega)).trans (BitVec.extractLsb'_append_eq_of_le (by omega))
  exact ⟨(skip (by decide)).trans BitVec.extractLsb'_append_eq_left,
    (skip (by decide)).trans BitVec.extractLsb'_append_eq_right,
    (BitVec.extractLsb'_append_eq_of_le (by decide)).trans BitVec.extractLsb'_append_eq_right,
    BitVec.extractLsb'_append_eq_right⟩

/-- The code of a zero of either sign lies in the middle range. -/
theorem auxcode_of_zero {w : Word64} (h : IsZero w) : auxcode config w = 0b01#2 := by
  obtain ⟨-, -, -, -, -, hneg, hpos, -⟩ := auxcodeByThresholds
  rcases h with rfl | rfl
  · exact hpos
  · exact hneg

/-- Four zeros of either sign pack to the neutral aux byte. -/
theorem auxpack_of_zeros {w4 w5 w6 w7 : Word64} (h4 : IsZero w4) (h5 : IsZero w5) (h6 : IsZero w6) (h7 : IsZero w7) :
    auxpack config w4 w5 w6 w7 = 0x55 := by
  rw [auxpack_eq_append, auxcode_of_zero h4, auxcode_of_zero h5, auxcode_of_zero h6, auxcode_of_zero h7]
  rfl

/-- Settles O41: the packed byte is the four codes side by side, so each is read back from its place. -/
theorem auxFieldsDoNotBleed : Obligations.AuxFieldsDoNotBleed := by
  refine ⟨fun w4 w5 w6 w7 => ?_, auxcode_cases, auxpack_of_zeros (.inl rfl) (.inl rfl) (.inl rfl) (.inl rfl)⟩
  rw [auxpack_eq_append]
  exact extractLsb'_four_fields _ _ _ _

end Sys2Proof.Machine
end

section
/-! SUPPORT. The channel unit's requests: `SETAX`, `RDAX` and `BLDRC` (41_channel.md R78 to R81). -/

namespace Sys2Proof.Machine

open Sys2Proof

/-- A request with the `OP` of a mnemonic that takes no `IN` is illegal when the word breaks what the mnemonic asks of it
or `IN` is not empty (30_encoding.md R35, R39). -/
theorem step_malformed_of_field {o : ReqOp} {q : Request} {wordOk : Prop}
    (hop : q.req.extractLsb' 28 4 = o.pattern.extractLsb' 28 4) (hword : o.selects q.req = true → wordOk)
    (hlen : o.inLength q.req = 0) (hbad : ¬ wordOk ∨ q.inp ≠ []) (s : State) :
    step (s.present (.request q)) = .next { s with response := some ⟨.illegalRequest, [], 0⟩ } := by
  refine step_malformed hop (fun hsel => ?_) s
  rw [hlen]
  exact mt List.eq_nil_of_length_eq_zero (hbad.resolve_left (not_not_intro (hword hsel)))

/-! ### SETAX -/

/-- The values `SETAX` is said to keep are numbers in range (41_channel.md R78). -/
theorem clamp_of_kept {d : Word64}
    (h : d = 0x8000000000000000#64 ∨ d = 0x3FF0000000000000#64 ∨ d = 0xBFF0000000000000#64 ∨ expField d = 0) :
    isNaN d = false ∧ clamp d = d := by
  obtain ⟨-, -, -, hnegZero, hnegOne, hposOne⟩ := clampRule
  rcases h with rfl | rfl | rfl | h
  · exact ⟨rfl, hnegZero⟩
  · exact ⟨rfl, hposOne⟩
  · exact ⟨rfl, hnegOne⟩
  · exact ⟨isNaN_of_subnormal h, clamp_of_subnormal h⟩

theorem read_execSetax {d : Word64} (hd : isNaN d = false) {a : Axis} {s t : State}
    (h : exec (.setax a d) s = .next t) : t.ch.read a = clamp d := by
  cases (execSetax_of_not_nan hd a s).symm.trans h
  exact Channels.read_write_same s.ch a (clamp d)

/-- Whether or not an earlier `SETAX` of the channel stored anything, this one overwrites it. -/
theorem execSetax_after_execSetax {a : Axis} {d d' : Word64} {s t : State} (hd' : isNaN d' = false)
    (h : exec (.setax a d) s = .next t) : execSetax a d' t = execSetax a d' s := by
  rw [execSetax_of_not_nan hd', execSetax_of_not_nan hd']
  cases hd : isNaN d with
  | true =>
    cases (execSetax_of_nan hd a s).symm.trans h
    rfl
  | false =>
    cases (execSetax_of_not_nan hd a s).symm.trans h
    rw [Channels.write_write]

/-- Settles O21: the parts of R78, from decoding, from what `SETAX` answers of a NaN and of any other value, and from
`clamp`. -/
theorem setaxStoresTheClampedValue : Obligations.SetaxStoresTheClampedValue := by
  obtain ⟨-, hposInf, hnegInf, -⟩ := clampRule
  refine ⟨fun q hmask hin => decode_of_mask (o := .setax) hmask (congrArg List.length hin), fun q s hop hbad => ?_,
    fun a d s hd => ⟨_, execSetax_of_not_nan hd a s, Channels.read_write_same _ _ _,
      fun b hb => Channels.read_write_of_ne _ _ hb, rfl, rfl⟩,
    fun a d s hd => execSetax_of_nan hd a s,
    fun a s t h => (read_execSetax rfl h).trans hposInf, fun a s t h => (read_execSetax rfl h).trans hnegInf,
    fun a d s t hkept h => ?_, fun a d d' s t u v hd' h hu hv => ?_, fun s => ?_⟩
  · exact step_malformed_of_field (o := .setax) hop (fun hsel => ((selects_setax_iff _).1 hsel).2) rfl hbad s
  · obtain ⟨hd, hkeep⟩ := clamp_of_kept hkept
    exact (read_execSetax hd h).trans hkeep
  · cases hu.symm.trans ((execSetax_after_execSetax hd' h).trans hv)
    rfl
  · have hclamp : clamp 0x3FFB333333333333#64 = 0x3FF0000000000000#64 := by decide +kernel
    exact hclamp ▸ execSetax_of_not_nan rfl .roll s

/-! ### RDAX -/

/-- Settles O22: the parts of R79, from decoding and from what `RDAX` answers, after a `SETAX` and after reset. -/
theorem rdaxReadsTheChannel : Obligations.RdaxReadsTheChannel := by
  refine ⟨fun q hmask hin => decode_of_mask (o := .rdax) hmask (congrArg List.length hin), fun q s hop hbad => ?_,
    execRdax_eq, fun a d s t hd h => ?_, fun a => ?_⟩
  · exact step_malformed_of_field (o := .rdax) hop (fun hsel => ((selects_rdax_iff _).1 hsel).2) rfl hbad s
  · rw [← read_execSetax hd h]
    exact execRdax_eq a t
  · rw [← Channels.read_centred a]
    exact execRdax_eq a State.reset

/-! ### BLDRC -/

/-- `BLDRC` writes out the RC frame of the channels' bytes (41_channel.md R80). -/
theorem execBldrc_eq_cons (s : State) :
    execBldrc s = .next { s with
      response := some ⟨.ok, [0x24, 0x4D, 0x3C, 0x05, 0x96, quantize config s.ch.roll, quantize config s.ch.pitch,
        quantize config s.ch.yaw, quantize config s.ch.throttle,
        auxpack config s.ch.aux1 s.ch.aux2 s.ch.aux3 s.ch.aux4,
        0x93 ^^^ quantize config s.ch.roll ^^^ quantize config s.ch.pitch ^^^ quantize config s.ch.yaw ^^^
          quantize config s.ch.throttle ^^^ auxpack config s.ch.aux1 s.ch.aux2 s.ch.aux3 s.ch.aux4], 0⟩ } :=
  (execBldrc_eq_execSetRawRcTiny s).trans (execSetRawRcTiny_eq _ _ _ _ _ s)

/-- Settles O42: each primary byte is 125, the aux byte is 0x55, and the frame of these is computed. -/
theorem signedZerosGiveTheNeutralFrame : Obligations.SignedZerosGiveTheNeutralFrame := by
  intro s hzero
  have hroll : quantize config s.ch.roll = 0x7D := quantize_of_zero (hzero .roll)
  have hpitch : quantize config s.ch.pitch = 0x7D := quantize_of_zero (hzero .pitch)
  have hyaw : quantize config s.ch.yaw = 0x7D := quantize_of_zero (hzero .yaw)
  have hthrottle : quantize config s.ch.throttle = 0x7D := quantize_of_zero (hzero .throttle)
  have haux : auxpack config s.ch.aux1 s.ch.aux2 s.ch.aux3 s.ch.aux4 = 0x55 :=
    auxpack_of_zeros (hzero .aux1) (hzero .aux2) (hzero .aux3) (hzero .aux4)
  have hframe := execBldrc_eq_cons s
  rwa [hroll, hpitch, hyaw, hthrottle, haux] at hframe

/-- Settles O23: the parts of R80; the channels, and with them the frame, are the same at a second `BLDRC`, and after
reset every channel is +0.0. -/
theorem bldrcBuildsTheRcFrame : Obligations.BldrcBuildsTheRcFrame := by
  refine ⟨rfl, fun q s hop hbad => ?_, fun s _ => execBldrc_eq_cons s, fun s t _ h => ?_,
    signedZerosGiveTheNeutralFrame State.reset fun a => .inl (Channels.read_centred a)⟩
  · exact step_malformed_of_field (o := .bldrc) hop
      (fun hsel => BitVec.and_allOnes.symm.trans (beq_iff_eq.1 hsel)) rfl hbad s
  · cases (execBldrc_eq_cons s).symm.trans h
    exact execBldrc_eq_cons _

end Sys2Proof.Machine
end

section
/-! SUPPORT. The errors: when an instruction answers with an error, what a step that does has changed, and which status
each request reports (60_exceptions.md R82 to R88). -/

namespace Sys2Proof.Machine

open Sys2Proof

/-- Settles O5: an illegal request does not decode, and not because of a wire frame. -/
theorem illegalRequestsAnswered : Obligations.IllegalRequestsAnswered := by
  intro q s hillegal
  obtain ⟨r, hdec, hr⟩ := rejected_of_illegal hillegal
  rw [step_present, perform_of_error hdec, rejectPresented_of_ne hr]

/-- Settles O14: with no event the step is `idle`. -/
theorem idleBlockKeepsChannels : Obligations.IdleBlockKeepsChannels := fun s hin =>
  ⟨idle s, step_idle hin, idle_ch s, hin, idle_response s⟩

/-! ### The instructions' own checks -/

/-- The instructions that fail their own check, with the status each reports (60_exceptions.md R84 to R86).
`exec_ok_or_fails` ties it to `exec`. -/
inductive FailsWith : Instr → Status → Prop where
  | nanInput (a : Axis) {d : Word64} (h : isNaN d = true) : FailsWith (.setax a d) .nanInput
  | payloadTooLarge (id : Byte) {p : List Byte} (h : 255 < p.length) : FailsWith (.bldcmd id p) .payloadTooLarge
  | checksumLength {wire : List Byte} (h : wire.length < 6 ∨ 261 < wire.length) :
      FailsWith (.cksum wire) .checksumLength

theorem not_failsWith_illegalRequest (i : Instr) : ¬ FailsWith i .illegalRequest := nofun

/-- An instruction passes its check and answers `OK`, or fails it and does nothing but report the status. -/
theorem exec_ok_or_fails (i : Instr) (s : State) :
    ((∀ st, ¬ FailsWith i st) ∧ ∃ t r, exec i s = .next t ∧ t.response = some r ∧ r.status = .ok) ∨
      ∃ st, FailsWith i st ∧ exec i s = .next { s with response := some ⟨st, [], 0⟩ } := by
  cases i with
  | setax a d =>
    by_cases h : isNaN d = true
    · exact .inr ⟨_, .nanInput a h, execSetax_of_nan h a s⟩
    · refine .inl ⟨fun _ hf => ?_, _, _, execSetax_of_not_nan (Bool.eq_false_iff.2 h) a s, rfl, rfl⟩
      cases hf with | nanInput _ hnan => exact h hnan
  | bldcmd id p =>
    by_cases h : 255 < p.length
    · exact .inr ⟨_, .payloadTooLarge id h, execBldcmd_of_gt h id s⟩
    · refine .inl ⟨fun _ hf => ?_, _, _, execBldcmd_of_le (Nat.le_of_not_lt h) id s, rfl, rfl⟩
      cases hf with | payloadTooLarge _ hlen => exact h hlen
  | cksum wire =>
    by_cases h : wire.length < 6 ∨ 261 < wire.length
    · exact .inr ⟨_, .checksumLength h, execCksum_of_bad_length h s⟩
    · refine .inl ⟨fun _ hf => ?_, _, _, execCksum_of_length (by omega) (by omega) s, rfl, rfl⟩
      cases hf with | checksumLength hlen => exact h hlen
  | rdax | bldrc | bldsmp | setRawRcTiny | rcinit | arm | disarm | trimUp | trimDown | trimLeft | trimRight =>
    exact .inl ⟨nofun, _, _, rfl, rfl, rfl⟩

/-- The error an instruction answers with is the check it fails. -/
theorem exec_status (i : Instr) (s : State) :
    ∃ t r, exec i s = .next t ∧ t.response = some r ∧ ∀ st, st ≠ .ok → (r.status = st ↔ FailsWith i st) := by
  rcases exec_ok_or_fails i s with ⟨hpass, t, r, hexec, hresp, hok⟩ | ⟨st, hfail, hexec⟩
  · refine ⟨t, r, hexec, hresp, fun st hst => ?_⟩
    rw [hok]
    exact iff_of_false hst.symm (hpass st)
  · refine ⟨_, _, hexec, rfl, fun st' _ => ⟨fun h => h ▸ hfail, fun hfail' => ?_⟩⟩
    -- an instruction has one check
    cases hfail <;> cases hfail' <;> rfl

/-! ### The errors of a step -/

theorem illegal_of_rejected {p : Presented} {e : Reject} (hdec : decode p = .error e) (he : e ≠ .notNamedCommand) :
    ∃ q, p = .request q ∧ IllegalRequest q := by
  cases p with
  | request q =>
    refine ⟨q, rfl, not_not.1 fun hlegal => ?_⟩
    obtain ⟨i, hok⟩ := (decodes_iff_not_illegal q).2 hlegal
    exact nomatch hdec.symm.trans hok
  | command wire => exact absurd (decode_command_error hdec) he

/-- Why something presented is answered with an error (60_exceptions.md R82). -/
def ErrorCause (p : Presented) (st : Status) : Prop :=
  (st = .illegalRequest ∧ ∃ q, p = .request q ∧ IllegalRequest q) ∨ ∃ i, decode p = .ok i ∧ FailsWith i st

/-- Everything a step that answers with an error does, and why it does. -/
theorem step_error {s t : State} {r : Response} (h : step s = .next t) (hr : t.response = some r)
    (herr : r.status ≠ .ok) :
    ∃ p rest, s.inputs = .present p :: rest ∧ ErrorCause p r.status ∧ r.out = [] ∧ r.res = 0 ∧
      t.ch = s.ch ∧ t.inputs = rest := by
  rcases step_cases h with ⟨-, rfl⟩ | ⟨rest, -, rfl⟩ | ⟨p, rest, e, hin, hdec, he, rfl⟩ | ⟨p, rest, i, hin, hdec, hexec⟩
  · exact nomatch hr
  · exact nomatch hr
  · cases hr
    exact ⟨p, rest, hin, .inl ⟨rfl, illegal_of_rejected hdec he⟩, rfl, rfl, rfl, rfl⟩
  · rcases exec_ok_or_fails i { s with inputs := rest } with ⟨-, t', r', hexec', hresp, hok⟩ | ⟨st, hfail, hexec'⟩
    · cases hexec.symm.trans hexec'
      cases hr.symm.trans hresp
      exact absurd hok herr
    · cases hexec.symm.trans hexec'
      cases hr
      exact ⟨p, rest, hin, .inr ⟨i, hdec, hfail⟩, rfl, rfl, rfl, rfl⟩

/-- Settles O19: what a step that answers with an error does. -/
theorem errorsHaveNoEffect : Obligations.ErrorsHaveNoEffect := by
  intro s t r h hr herr
  obtain ⟨p, rest, hin, -, hout, hres, hch, hinputs⟩ := step_error h hr herr
  exact ⟨hch, by rw [hinputs, hin, List.tail_cons], hout, hres⟩

/-- Settles O20: the cause of an error with a given status is the one check that reports it. -/
theorem statusCodesAndCauses : Obligations.StatusCodesAndCauses := by
  refine ⟨⟨rfl, rfl, rfl, rfl, rfl, fun st => by cases st <;> decide⟩, fun s t r h hr => ?_⟩
  have cause_of_status {st : Status} (hst : r.status = st) (hne : st ≠ .ok) :
      ∃ p rest, s.inputs = .present p :: rest ∧ ErrorCause p st := by
    subst hst
    obtain ⟨p, rest, hin, hcause, -⟩ := step_error h hr hne
    exact ⟨p, rest, hin, hcause⟩
  refine ⟨fun hst => ?_, fun hst => ?_, fun hst => ?_, fun hst => ?_⟩
  · obtain ⟨p, rest, hin, ⟨-, q, rfl, hillegal⟩ | ⟨i, -, hfail⟩⟩ := cause_of_status hst (by decide)
    · exact ⟨q, rest, hin, hillegal⟩
    · exact absurd hfail (not_failsWith_illegalRequest i)
  · obtain ⟨p, rest, hin, ⟨hst', -⟩ | ⟨i, hdec, hfail⟩⟩ := cause_of_status hst (by decide)
    · exact nomatch hst'
    · cases hfail with | payloadTooLarge id hlen => exact ⟨p, rest, id, _, hin, hdec, hlen⟩
  · obtain ⟨p, rest, hin, ⟨hst', -⟩ | ⟨i, hdec, hfail⟩⟩ := cause_of_status hst (by decide)
    · exact nomatch hst'
    · cases hfail with | checksumLength hlen => exact ⟨p, rest, _, hin, hdec, hlen⟩
  · obtain ⟨p, rest, hin, ⟨hst', -⟩ | ⟨i, hdec, hfail⟩⟩ := cause_of_status hst (by decide)
    · exact nomatch hst'
    · cases hfail with | nanInput a hnan => exact ⟨p, rest, a, _, hin, hdec, hnan⟩

/-! ### The status of a request -/

/-- A selected mnemonic is the one whose `OP` the word has. -/
theorem op_eq_iff {o : ReqOp} {w : Word32} (hs : o.selects w = true) (o' : ReqOp) :
    w.extractLsb' 28 4 = o'.pattern.extractLsb' 28 4 ↔ o = o' := by
  rw [op_of_selects hs]
  exact ⟨eq_of_op_eq, fun h => h ▸ rfl⟩

/-- Which check a legal request fails, by its fields. -/
theorem failsWith_instr_iff {o : ReqOp} {q : Request} (hl : q.inp.length = o.inLength q.req) (st : Status) :
    FailsWith (o.instr q) st ↔
      (st = .payloadTooLarge ∧ o = .bldcmd ∧ 255 < (q.req.extractLsb' 0 16).toNat) ∨
      (st = .checksumLength ∧ o = .cksum ∧
        ((q.req.extractLsb' 0 16).toNat < 6 ∨ 261 < (q.req.extractLsb' 0 16).toNat)) ∨
      (st = .nanInput ∧ o = .setax ∧ isNaN q.d = true) := by
  constructor
  · intro h
    cases o with
    | setax => cases h with | nanInput _ hnan => exact .inr (.inr ⟨rfl, rfl, hnan⟩)
    | bldcmd => cases h with | payloadTooLarge _ hlen => exact .inl ⟨rfl, rfl, hlen.trans_eq hl⟩
    | cksum => cases h with | checksumLength hlen => exact .inr (.inl ⟨rfl, rfl, hlen.imp hl.symm.trans_lt (·.trans_eq hl)⟩)
    | rdax | bldrc | bldsmp => exact nomatch h
  · rintro (⟨rfl, rfl, hlen⟩ | ⟨rfl, rfl, hlen⟩ | ⟨rfl, rfl, hnan⟩)
    · exact .payloadTooLarge _ (hlen.trans_eq hl.symm)
    · exact .checksumLength (hlen.imp hl.trans_lt (·.trans_eq hl.symm))
    · exact .nanInput _ hnan

/-- Settles O6: an illegal request reports `ILLEGAL_REQUEST`; a legal one is its mnemonic's instruction, which reports
the check it fails. -/
theorem requestStatusDecidedInOrder : Obligations.RequestStatusDecidedInOrder := by
  intro q s
  by_cases hillegal : IllegalRequest q
  · exact ⟨_, _, illegalRequestsAnswered q s hillegal, rfl, by simp [hillegal]⟩
  · obtain ⟨o, hs, hl⟩ := (not_illegal_iff_selected q).1 hillegal
    have hdec : decode (.request q) = .ok (o.instr q) := decodeRequest_eq_ok_iff.2 ⟨o, hs, hl, rfl⟩
    obtain ⟨t, r, hexec, hresp, hstatus⟩ := exec_status (o.instr q) s
    have hbldcmd : q.req.extractLsb' 28 4 = 4#4 ↔ o = .bldcmd := op_eq_iff hs .bldcmd
    have hcksum : q.req.extractLsb' 28 4 = 6#4 ↔ o = .cksum := op_eq_iff hs .cksum
    rw [step_present, perform_of_ok hdec]
    refine ⟨t, r, hexec, hresp, ?_, ?_, ?_, ?_⟩
    · exact iff_of_false (mt (hstatus _ (by decide)).1 (not_failsWith_illegalRequest _)) hillegal
    · simp [hstatus, failsWith_instr_iff hl, hillegal, hbldcmd]
    · simp [hstatus, failsWith_instr_iff hl, hillegal, hcksum]
    · simp [hstatus, failsWith_instr_iff hl, hillegal, op_eq_one_iff hs]

end Sys2Proof.Machine
end

section
/-! SUPPORT. Reset, and sequences of requests that depend on it or stand in for it (70_reset_and_hazards.md). -/

namespace Sys2Proof.Machine

open Sys2Proof

/-! ### Reset -/

/-- Settles O12: the step is `performReset`, which centres the channels as `State.reset` does. -/
theorem resetZeroesEveryChannel : Obligations.ResetZeroesEveryChannel :=
  ⟨fun _ _ hin => ⟨_, step_reset hin, Channels.read_centred, rfl, rfl⟩, Channels.read_centred⟩

/-- Settles O13: the request decodes to `BLDRC`, and after reset every channel is +0.0. -/
theorem firstFrameAfterResetIsNeutral : Obligations.FirstFrameAfterResetIsNeutral :=
  (stepRunsDecodedInstruction _ _ [] .bldrc rfl rfl).trans
    (signedZerosGiveTheNeutralFrame _ fun a => .inl (Channels.read_centred a))

/-! ### A read after a write -/

theorem step_rdaxRequest {s : State} {a : Axis} {d : Word64} {rest : List HostEvent}
    (hin : s.inputs = .present (.request (ReqOp.rdax.request (axisBits a) d [])) :: rest) :
    step s = .next ⟨s.ch, rest, some ⟨.ok, [], s.ch.read a⟩⟩ :=
  (stepRunsDecodedInstruction s _ rest _ hin (decode_rdaxRequest a d)).trans (execRdax_eq a _)

/-- Settles O44: the `SETAX` step writes the clamped value, and the `RDAX` step reads the channels it leaves. -/
theorem nextRequestSeesTheWrite : Obligations.NextRequestSeesTheWrite := by
  intro a b d e s rest hd hin
  have hrun : Sys2Proof.core.run 2 s =
      .next ⟨s.ch.write a (clamp d), rest, some ⟨.ok, [], (s.ch.write a (clamp d)).read b⟩⟩ :=
    (run_succ_of_step (step_setaxRequest hd hin) 1).trans (run_succ_of_step (step_rdaxRequest rfl) 0)
  exact ⟨_, hrun, rfl, by rw [Channels.read_write]⟩

/-! ### CENTER -/

/-- Writing one value to several channels leaves it in each of them, and in a channel that held it already. -/
theorem Channels.read_foldl_write {as : List Axis} {ch : Channels} {a : Axis} {w : Word64}
    (h : a ∈ as ∨ ch.read a = w) : (as.foldl (fun ch b => ch.write b w) ch).read a = w := by
  induction as generalizing ch with
  | nil => exact h.resolve_left List.not_mem_nil
  | cons b bs ih =>
    refine ih ?_
    by_cases hab : a = b
    · subst hab
      exact .inr (Channels.read_write_same ch a w)
    · rw [Channels.read_write_of_ne ch w hab]
      exact h.imp_left fun hmem => (List.mem_cons.1 hmem).resolve_left hab

/-- Settles O45: `CENTER` is a `SETAX` of +0.0, which `clamp` keeps, for every axis. -/
theorem centerCentresEveryChannel : Obligations.CenterCentresEveryChannel := by
  intro s rest hin
  have hnan : isNaN 0 = false := isNaN_of_subnormal rfl
  have hclamp : clamp 0 = 0 := clamp_of_subnormal rfl
  obtain ⟨response, hrun⟩ := run_setaxRequests (axes.map fun a => (a, 0)) 0
    (List.forall_mem_map.2 fun _ _ => hnan) hin
  refine ⟨_, hrun, fun a => ?_, rfl⟩
  simp only [List.foldl_map, hclamp]
  exact Channels.read_foldl_write (.inl (mem_axes a))

end Sys2Proof.Machine
end

section
/-! SUPPORT. The words of the spec's vectors, decoded. -/

namespace Sys2Proof.Machine

open Sys2Proof

/-- What a word that no mnemonic selects is rejected as: its `OP` alone decides (30_encoding.md R39). -/
theorem decode_of_selectOp_eq_none {q : Request} (hsel : selectOp q.req = none) :
    decode (.request q) = .error (if opDefined q.req then .mustBeZeroBit else .reservedOp) := by
  rw [decode_request, decodeRequest, hsel]

/-- Settles O9: the six legal requests are the encodings of their instructions, and no mnemonic selects the other two
words. -/
theorem wordsOfTheSpecDecode : Obligations.WordsOfTheSpecDecode :=
  ⟨encodeThenDecode (.setax .aux4 0x3FECCCCCCCCCCCCD#64) rfl,
    encodeThenDecode (.rdax .throttle) rfl,
    encodeThenDecode .bldrc rfl,
    encodeThenDecode (.bldcmd 0xC8 [0x01, 0x02, 0x03]) rfl,
    encodeThenDecode (.bldsmp 0x9C) rfl,
    encodeThenDecode (.cksum [0x24, 0x4D, 0x3C, 0x00, 0x97, 0x97]) rfl,
    decode_of_selectOp_eq_none (q := ⟨0x70000000#32, 0#64, []⟩) rfl,
    decode_of_selectOp_eq_none (q := ⟨0x41000100#32, 0#64, []⟩) rfl⟩

end Sys2Proof.Machine
end
